-- ==== Sys2Proof/Word.lean ====
section
/-! DEFINITION. The words of the TOTP core (spec/00_scope.md R11, R12): a byte, a 32-bit register
word, a 64-bit TIME or COUNTER value, and a byte string. Every value is unsigned (R11). -/

namespace Sys2Proof

/-- A byte, an integer in [0, 255] (R12). -/
abbrev Byte := BitVec 8

/-- A 32-bit register value (R11). -/
abbrev Word := BitVec 32

/-- A 64-bit value held in a register pair (R13, TIME and COUNTER). -/
abbrev DWord := BitVec 64

/-- `Bytes` of R12: a finite sequence of bytes, index 0 first. -/
abbrev Bytes := List Byte

end Sys2Proof
end

