-- ==== Sys2Proof/Config.lean ====
section
/-! DEFINITION. What the build of the block fixes (spec/00_scope.md R9), and the free values the
spec leaves open (spec/93_implementation_defined.md I8, I10). A free value is an `opaque` constant
with no body: nothing can be proved of it. -/

namespace Sys2Proof

/-- The HMAC-SHA1 processor as a parameter (spec/42_hmac_sha1.md R150, R151): a total,
deterministic function of the key bytes and the 8-byte message, answering 20 bytes.
Every operation that calls the processor takes it as an argument of this type. -/
abbrev HmacProcessor := Bytes → Vector Byte 8 → Vector Byte 20

namespace Config

/-- `STEP` of R9: the time-step width in seconds. -/
def stepSeconds : Nat := 30

/-- `DIGITS` of R9: the decimal digits of the code. -/
def digits : Nat := 6

/-- The modulus 10^DIGITS of R9 and R192. -/
def modulus : Nat := 10 ^ digits

/-- `TOKMAX` of R9: the capacity of the TOKEN buffer in bytes. -/
def tokMax : Nat := 256

/-- `KEYMAX` of R9: the capacity of the KEY buffer in bytes. -/
def keyMax : Nat := 160

/-- `WINDOW` of R9: the size of the register window in bytes. -/
def windowBytes : Nat := 4096

/-- The number of the 4096-byte page the platform puts the window on: OPEN (R9, I10).
DESIGN CHOICE (log 4), safe: a parameter of the model that nothing can be proved of. -/
opaque windowPage : Nat

/-- `TOTP_BASE` of R9: the platform address of offset 0, a multiple of 4096 (I10). -/
def totpBase : Nat := windowBytes * windowPage

/-- FREE VALUE (R69, I8; log 2): the value the n-th unspecified read of a run returns, a fresh
draw for each read. -/
opaque busyRead : Nat → Word

/-- FREE VALUE (log 9): what host variable x holds before the host's program has read into it.
The spec gives the host's variables no initial value (R87). -/
opaque hostVarInit : Nat → Word

end Config

end Sys2Proof
end

