-- ==== Sys2Proof/Syntax.lean ====
section
/-! DEFINITION. The commands of the block, one constructor for each row of spec/opcode_table.json
(spec/30_encoding.md R82). -/

namespace Sys2Proof

/-- A command. Commands have no operand fields and no immediates (R81): every operand is
implicit, so no constructor has an argument. -/
inductive Instr where
  /-- NOP, 0x00000000 (R230). -/
  | nop
  /-- B32DEC, 0x00000001 (R108). -/
  | b32dec
  /-- TSTEP, 0x00000002 (R133). -/
  | tstep
  /-- HOTP, 0x00000003 (R195). -/
  | hotp
  /-- TOTP, 0x00000004 (R196). -/
  | totp
  /-- ROWCODE, 0x00000005 (R197). -/
  | rowcode
  /-- CLRERR, 0x00000006 (R231). -/
  | clrerr
  /-- SRST, 0x00000007 (R232). -/
  | srst
deriving DecidableEq, Repr

end Sys2Proof
end

