-- ==== Sys2Proof/Decode.lean ====
section
/-! DEFINITION. The command word CMD32 (spec/30_encoding.md R80): its two fields, the decoder of
R85, total on every 32-bit word and rejecting by name, and the encoder of R82. -/

namespace Sys2Proof

/-- OPC of R80, bits 7:0: the opcode. -/
def opcField (w : Word) : Byte := w.extractLsb' 0 8

/-- RSV of R80, bits 31:8: reserved, must be 0. -/
def rsvField (w : Word) : BitVec 24 := w.extractLsb' 8 24

/-- Why a word is illegal (R84). -/
inductive Illegal where
  /-- Bits 31:8 are not all 0. -/
  | reservedBits
  /-- Bits 31:8 are 0 and the opcode is in 0x08 to 0xFF. -/
  | reservedOpcode (opc : Byte)
deriving DecidableEq, Repr

/-- The opcode map (R82): the command of an opcode, if it has one. -/
def commandOfOpcode (opc : Byte) : Option Instr :=
  match opc.toNat with
  | 0x00 => some .nop
  | 0x01 => some .b32dec
  | 0x02 => some .tstep
  | 0x03 => some .hotp
  | 0x04 => some .totp
  | 0x05 => some .rowcode
  | 0x06 => some .clrerr
  | 0x07 => some .srst
  | _ => none

/-- The decoding function (R85): total on every word; the reserved bits are looked at first. -/
def decodeCommand (w : Word) : Except Illegal Instr :=
  if rsvField w ≠ 0 then .error .reservedBits
  else
    match commandOfOpcode (opcField w) with
    | some i => .ok i
    | none => .error (.reservedOpcode (opcField w))

/-- The word a row of `spec/opcode_table.json` stands for, read by the decoder. A command is one
whole 32-bit word (R80), so the words laid out are one word; a row of more than 32 bits is none
of this block's. -/
def decodeTableWord (nbits w : Nat) : Option Instr :=
  if nbits ≤ 32 then
    match decodeCommand (BitVec.ofNat 32 (w % 2 ^ nbits)) with
    | .ok i => some i
    | .error _ => none
  else none

/-- The "encoding" column of R82. -/
def encode : Instr → Word
  | .nop => 0x00000000
  | .b32dec => 0x00000001
  | .tstep => 0x00000002
  | .hotp => 0x00000003
  | .totp => 0x00000004
  | .rowcode => 0x00000005
  | .clrerr => 0x00000006
  | .srst => 0x00000007

end Sys2Proof
end

