-- ==== Sys2Proof/Machine/HostProgram.lean ====
section
/-! DEFINITION. The host's side as syntax: bus accesses (spec/20_memory.md R60, R63), the events of
the one total order (R72, R263), and the host program notation with its pseudo-operations
(spec/30_encoding.md R87, R88). -/

namespace Sys2Proof.Machine

/-- The sizes in bytes a host access can have (R62, R63). Only `four` is defined for the block. -/
inductive AccessSize where
  | one
  | two
  | four
  | eight
deriving DecidableEq, Repr

/-- A host bus access. `off` is the platform address less `TOTP_BASE` (R60), an integer, since an
access may lie below the window. `x` is the host variable a read's value goes to (R87). `v` is
the word written; a write of another size than 4 has no effect whatever it carries (R63). -/
inductive Access where
  | read (size : AccessSize) (off : Int) (x : Nat)
  | write (size : AccessSize) (off : Int) (v : Word)
deriving DecidableEq, Repr

/-- `off = a - TOTP_BASE` of R60, for a window at `base` and an access at platform address `a`. -/
def offsetOf (base a : Nat) : Int := (a : Int) - (base : Int)

/-- One event of the total order of R72. -/
inductive Event where
  /-- The sequencer's step, if it has one (R26). -/
  | sequencer
  /-- The host executes one statement of its program (R87). -/
  | host
  /-- A bus access that comes from outside the host's program (I19, R270). -/
  | access (a : Access)
  /-- The hardware reset input (R280). -/
  | hardReset
deriving DecidableEq, Repr

/-- A word-valued host expression. The spec gives host expressions by example only (R87, R88:
`s[0] = 1`); this small language is DESIGN CHOICE (log 8). -/
inductive HostTerm where
  | lit (v : Word)
  | var (x : Nat)
  /-- `t[hi:lo]` of R11. -/
  | field (t : HostTerm) (hi lo : Nat)
deriving DecidableEq, Repr

/-- A host condition, the `EXPR` of `if EXPR goto L` (R87; DESIGN CHOICE, log 8). -/
inductive HostCond where
  | eq (a b : HostTerm)
  | lt (a b : HostTerm)
  | not (c : HostCond)
  | and (c d : HostCond)
deriving DecidableEq, Repr

/-- A line of a host program (R87). Labels and host variables are numbered. -/
inductive Stmt where
  /-- `L:` -/
  | label (l : Nat)
  /-- `wr OFF, VAL`. R87 does not say what VAL may be; that it is a literal word, never a host
  variable or expression, is DESIGN CHOICE (log 16). -/
  | wr (off : Nat) (v : Word)
  /-- `rd OFF -> name` -/
  | rd (off : Nat) (x : Nat)
  /-- `cmd MNEMONIC` -/
  | cmd (i : Instr)
  /-- `if EXPR goto L` -/
  | ifGoto (c : HostCond) (l : Nat)
  /-- `stop` -/
  | stop
deriving DecidableEq, Repr

/-- Bit `i` of variable `x` is 1 (R88: `s[0] = 1`). -/
def bitIsOne (x i : Nat) : HostCond := .eq (.field (.var x) i i) (.lit 1)

/-- `wait` (R88): read STATUS until BUSY = 0. `l` is the fresh label, `x` the variable `s`. -/
def waitOp (l x : Nat) : List Stmt :=
  [.label l, .rd 0x00C x, .ifGoto (bitIsOne x 0) l]

/-- `run MNEMONIC` (R88). -/
def runOp (i : Instr) (l x : Nat) : List Stmt := .cmd i :: waitOp l x

/-- `ld64 HI, v` (R88): the high half first. -/
def ld64Op (hiOff : Nat) (v : DWord) : List Stmt :=
  [.wr hiOff (v.extractLsb' 32 32), .wr (hiOff + 4) (v.extractLsb' 0 32)]

/-- The words of `ldtok` and `ldkey` (R88): four bytes a word, the lowest index in bits 31:24,
bytes past the end taken as 0x00. -/
def stringWords : Bytes → List Word
  | [] => []
  | [a] => [a ++ (0 : Byte) ++ (0 : Byte) ++ (0 : Byte)]
  | [a, b] => [a ++ b ++ (0 : Byte) ++ (0 : Byte)]
  | [a, b, c] => [a ++ b ++ c ++ (0 : Byte)]
  | a :: b :: c :: d :: rest => (a ++ b ++ c ++ d) :: stringWords rest

/-- One `wr` a word, at `off`, `off + 4`, ... -/
def wordWrites (off : Nat) : List Word → List Stmt
  | [] => []
  | w :: ws => .wr off w :: wordWrites (off + 4) ws

/-- `ldtok "s"` (R88). -/
def ldtokOp (s : Bytes) : List Stmt :=
  wordWrites 0x100 (stringWords s) ++ [.wr 0x024 (BitVec.ofNat 32 s.length)]

/-- `ldkey b` (R88): as `ldtok`, with base 0x200 and KEYLEN. -/
def ldkeyOp (s : Bytes) : List Stmt :=
  wordWrites 0x200 (stringWords s) ++ [.wr 0x028 (BitVec.ofNat 32 s.length)]

/-- `check` (R88): branch to the program's label Lerr if STATUS.ERR is 1. -/
def checkOp (lerr x : Nat) : List Stmt := [.rd 0x00C x, .ifGoto (bitIsOne x 2) lerr]

/-- Where label `l` stands in a program, if it does. R87 does not say what a label defined twice
means; the first occurrence counts (DESIGN CHOICE, log 17). -/
def labelIndex (l : Nat) : List Stmt → Option Nat
  | [] => none
  | st :: rest => if st = .label l then some 0 else (labelIndex l rest).map (· + 1)

end Sys2Proof.Machine
end

