-- ==== Sys2Proof/Machine/State.lean ====
section
/-! DEFINITION. The state of the machine: the block's architectural record (spec/10_state.md R20),
field for field, and beside it `env`, the model's own record of the block's surroundings (the
host's program and variables and the order of events, spec/20_memory.md R72). Also the errors a
command can end with, the faults and refusals of a step, and the reset state (R281). -/

namespace Sys2Proof.Machine

/-- A byte buffer: the (index, byte) pairs of the bytes that are not 0x00, indexes strictly
rising. An unlisted index reads 0x00, the buffers' reset contents (R45, R46, R281; log 13). -/
abbrev Memory := List Host.Cell

/-- The ways base32 decoding fails (spec/40_base32.md R100). -/
inductive DecodeError where
  /-- B32_BADCHAR (R103). -/
  | badChar
  /-- B32_BADLEN (R104). -/
  | badLen
  /-- B32_BADTAIL (R106). -/
  | badTail
deriving DecidableEq, Repr

/-- What `raise CmdError` raises (spec/60_exceptions.md R251); these are no faults of a step: a
command that raises one completes, and the machine goes on (R250, R253). -/
inductive CmdError where
  /-- ILLEGAL_CMD, by a word that decodes to no command. -/
  | illegalCmd
  /-- ABORTED, by B32DEC, HOTP, TOTP, ROWCODE while ABORT = 1. -/
  | aborted
  /-- LENGTH_RANGE, by TOKLEN > 256 or KEYLEN > 160. -/
  | lengthRange
  /-- A DecodeError, by B32DEC and ROWCODE. -/
  | decode (e : DecodeError)
deriving DecidableEq, Repr

/-- What surrounds the block: the model's own fields, none of which the block can see.
`agenda` is the order in which the next events happen (R72, R263); `program`, `hostPc`,
`hostStopped` and `vars` are the host program of R87 and how far it is; `draws` counts the
unspecified reads so far (R69). -/
structure Env where
  /-- The events that happen next, the first of the list first. -/
  agenda : List Event
  /-- The host's program. -/
  program : List Stmt
  /-- The index of the statement the host executes next. -/
  hostPc : Nat
  /-- The host has executed `stop`, or has no program. -/
  hostStopped : Bool
  /-- The host's variables: the values it has read, the latest first. -/
  vars : List (Nat × Word)
  /-- How many free values have been drawn (log 2). -/
  draws : Nat
deriving DecidableEq, Repr

/-- The machine's state. Every field but `env` is the field of R20 of the same name. -/
structure State where
  /-- CONFIG.FAILFAST (R23). -/
  failfast : Bool
  /-- CONFIG.STRICT (R23). -/
  strict : Bool
  /-- STATUS.BUSY (R26). -/
  busy : Bool
  /-- STATUS.DONE (R27). -/
  done : Bool
  /-- STATUS.ERR (R28). -/
  err : Bool
  /-- STATUS.VALID (R29). -/
  valid : Bool
  /-- STATUS.ABORT, the fail-fast latch (R30). -/
  abort : Bool
  /-- STATUS.OVR (R31). -/
  ovr : Bool
  /-- STATUS.ERRCODE (R28). -/
  errcode : BitVec 4
  /-- STATUS.LASTOP (R32). -/
  lastop : Byte
  /-- The accepted command word, hidden (R48). -/
  pending : Word
  /-- TIME_HI:TIME_LO (R33). -/
  time : DWord
  /-- CTR_HI:CTR_LO (R34). -/
  ctr : DWord
  /-- SECREM (R35). -/
  secrem : BitVec 6
  /-- TOKLEN (R36). -/
  toklen : Word
  /-- KEYLEN (R37). -/
  keylen : Word
  /-- CODE (R38). -/
  code : BitVec 20
  /-- DIGITS_HI and DIGITS_LO (R39). -/
  digits : Vector Byte 6
  /-- OFFSET (R40). -/
  offset : BitVec 4
  /-- SNUM (R41). -/
  snum : BitVec 31
  /-- DIGEST0 to DIGEST4 (R42). -/
  digest : Vector Byte 20
  /-- The TOKEN buffer, 256 bytes (R45). -/
  token : Memory
  /-- The KEY buffer, 160 bytes (R46). -/
  key : Memory
  /-- The model's own surroundings of the block. -/
  env : Env
deriving DecidableEq, Repr

/-- What stops a run. -/
inductive Fault where
  /-- `raise BusFault(addr)` (R63, R261, I7): a host access inside the window of the wrong size or
  alignment, raised by `hostAccess`. Safe: the hardware ignores a write and answers a read with
  an unspecified value, and the model's run ends, as R63 says a model does (log 11). -/
  | busFault (addr : Int)
  /-- A host program takes a branch to a label it does not define, raised by `hostStmt`. R87 gives
  such a program no meaning. Safe: the block itself never raises it (log 8). -/
  | undefinedLabel (l : Nat)
deriving DecidableEq, Repr

/-- Why the model gives an instruction no meaning. -/
inductive Refusal where
  /-- Raised only by an arm of `exec` whose instruction has no meaning yet; safe. No arm of this
  model raises it. -/
  | notModelled (mnemonic : String)
deriving DecidableEq, Repr

/-- What a step of this machine answers. -/
abbrev Result := Host.Outcome State Fault Refusal

/-- Right after power-up nothing surrounds the block: no event is ordered, no program runs.
DESIGN CHOICE (log 10): the spec gives the surroundings no reset value. -/
def Env.reset : Env where
  agenda := []
  program := []
  hostPc := 0
  hostStopped := true
  vars := []
  draws := 0

/-- The reset state (spec/70_reset_and_hazards.md R281): every field 0 but FAILFAST = 1. -/
def State.reset : State where
  failfast := true
  strict := false
  busy := false
  done := false
  err := false
  valid := false
  abort := false
  ovr := false
  errcode := 0
  lastop := 0
  pending := 0
  time := 0
  ctr := 0
  secrem := 0
  toklen := 0
  keylen := 0
  code := 0
  digits := #v[0, 0, 0, 0, 0, 0]
  offset := 0
  snum := 0
  digest := #v[0, 0, 0, 0, 0, 0, 0, 0, 0, 0, 0, 0, 0, 0, 0, 0, 0, 0, 0, 0]
  token := []
  key := []
  env := Env.reset

end Sys2Proof.Machine
end

