-- ==== Sys2Proof/Machine/Flags.lean ====
section
/-! DEFINITION. The flags: the words CONFIG and STATUS read as (spec/10_state.md R23, R25) and the
error codes (spec/60_exceptions.md R251). -/

namespace Sys2Proof.Machine

/-- The one-bit flag `b` at bit `i` of a register word. -/
def bitWord (b : Bool) (i : Nat) : Word := (BitVec.ofBool b).setWidth 32 <<< i

/-- CONFIG as read (R23): FAILFAST in bit 0, STRICT in bit 1, bits 31:2 read 0. -/
def configWord (s : State) : Word := bitWord s.failfast 0 ||| bitWord s.strict 1

/-- STATUS as read (R25): every reserved bit reads 0. -/
def statusWord (s : State) : Word :=
  bitWord s.busy 0 ||| bitWord s.done 1 ||| bitWord s.err 2 ||| bitWord s.valid 3 |||
    bitWord s.abort 4 ||| bitWord s.ovr 5 ||| (s.errcode.setWidth 32 <<< 8) |||
    (s.lastop.setWidth 32 <<< 16)

/-- ERRCODE of a DecodeError (R251). -/
def decodeErrorCode : DecodeError → BitVec 4
  | .badChar => 4
  | .badLen => 5
  | .badTail => 6

/-- ERRCODE of an error (R251). Codes 7 to 15 are never produced (I13). -/
def errorCode : CmdError → BitVec 4
  | .illegalCmd => 1
  | .aborted => 2
  | .lengthRange => 3
  | .decode e => decodeErrorCode e

/-- The error is a DecodeError, code 4, 5 or 6: one that can set ABORT (R256). -/
def setsAbort : CmdError → Bool
  | .illegalCmd => false
  | .aborted => false
  | .lengthRange => false
  | .decode _ => true

end Sys2Proof.Machine
end

