-- ==== Sys2Proof/Machine/Ops.lean ====
section
/-! DEFINITION. The operations shared by the meanings: bytes and words (spec/20_memory.md R64), the
byte buffers, accepting a command (spec/10_state.md R24), the two ways a command completes
(spec/60_exceptions.md R252, R253; an error completion is what this block has for an exception),
and reset (spec/70_reset_and_hazards.md R280, R281). -/

namespace Sys2Proof.Machine

/-! ### Bytes in words (R64): the lowest index in the most significant bits -/

/-- `{b0, b1, b2, b3}`: four bytes as a bus word. -/
def packWord (b0 b1 b2 b3 : Byte) : Word := b0 ++ b1 ++ b2 ++ b3

/-- `be_4` (R12): the bytes of a word, most significant first. -/
def wordBytes (w : Word) : Bytes :=
  [w.extractLsb' 24 8, w.extractLsb' 16 8, w.extractLsb' 8 8, w.extractLsb' 0 8]

/-- Bits 63:32 of a 64-bit value, its register at the lower offset (R64). -/
def hiWord (v : DWord) : Word := v.extractLsb' 32 32

/-- Bits 31:0 of a 64-bit value. -/
def loWord (v : DWord) : Word := v.extractLsb' 0 32

/-- `{hi, lo}` (R13). -/
def dword (hi lo : Word) : DWord := hi ++ lo

/-- `be_8` (R12). -/
def dwordBytes (v : DWord) : Bytes := wordBytes (hiWord v) ++ wordBytes (loWord v)

/-- `from_be` (R12): the integer whose big-endian encoding is `bs`. -/
def fromBe (bs : Bytes) : Nat := bs.foldl (fun acc b => acc * 256 + b.toNat) 0

/-! ### The byte buffers (R45, R46) -/

/-- What an unlisted byte of a buffer reads as: its reset contents (R281). -/
def Memory.unlisted : Byte := 0

/-- The canonical form: indexes strictly rising, no listed byte equal to an unlisted one. -/
def Memory.wf (m : Memory) : Bool :=
  decide (m.Pairwise fun c d => c.1 < d.1) && m.all fun c => c.2 ≠ Memory.unlisted

/-- Every listed index is below `n`. -/
def Memory.within (n : Nat) (m : Memory) : Bool := m.all fun c => c.1 < n

/-- `BUF[i]` (R13). -/
def Memory.readByte : Memory → Nat → Byte
  | [], _ => Memory.unlisted
  | (k, b) :: rest, i => if k = i then b else Memory.readByte rest i

/-- `BUF[i] <- b` (R13), keeping the canonical form. -/
def Memory.writeByte : Memory → Nat → Byte → Memory
  | [], i, v => if v = Memory.unlisted then [] else [(i, v)]
  | (k, b) :: rest, i, v =>
    if i < k then
      if v = Memory.unlisted then (k, b) :: rest else (i, v) :: (k, b) :: rest
    else if i = k then
      if v = Memory.unlisted then rest else (i, v) :: rest
    else (k, b) :: Memory.writeByte rest i v

/-- The bytes at `i`, `i + 1`, ... become those of a byte string. -/
def Memory.writeBytes : Memory → Nat → Bytes → Memory
  | m, _, [] => m
  | m, i, b :: bs => Memory.writeBytes (Memory.writeByte m i b) (i + 1) bs

/-- `BUF[0 : n]` (R12). -/
def Memory.firstBytes (m : Memory) (n : Nat) : Bytes := (List.range n).map (Memory.readByte m)

/-- Word `j` of a buffer (R45): `{BUF[4j], BUF[4j+1], BUF[4j+2], BUF[4j+3]}`. -/
def Memory.readWord (m : Memory) (j : Nat) : Word :=
  packWord (m.readByte (4 * j)) (m.readByte (4 * j + 1)) (m.readByte (4 * j + 2))
    (m.readByte (4 * j + 3))

/-- A write of word `j` writes all four bytes (R45). -/
def Memory.writeWord (m : Memory) (j : Nat) (w : Word) : Memory :=
  m.writeBytes (4 * j) (wordBytes w)

/-- `r` followed by zeros up to `n` bytes: what B32DEC writes to the KEY buffer (R108). -/
def zeroFilled (n : Nat) (r : Bytes) : Bytes := r ++ List.replicate (n - r.length) 0

/-! ### Accepting and completing a command -/

/-- Acceptance of the word `w` (R24), one atomic step. -/
def State.accept (s : State) (w : Word) : State :=
  { s with pending := w, busy := true, done := false, lastop := opcField w }

/-- A write dropped because BUSY = 1 (R68, R260): OVR is set and nothing else changes. -/
def State.dropWrite (s : State) : State := { s with ovr := true }

/-- ABORT and OVR cleared (R231). -/
def State.clearLatches (s : State) : State := { s with abort := false, ovr := false }

/-- `complete()` (R252). -/
def State.complete (s : State) : State :=
  { s with busy := false, done := true, err := false, errcode := 0 }

/-- `raise CmdError(e)` (R253, R256): the error completion, the one way a command fails.
`isCode` says that the command is HOTP, TOTP or ROWCODE, which clear VALID. -/
def State.raise (s : State) (isCode : Bool) (e : CmdError) : State :=
  { s with
    busy := false
    done := true
    err := true
    errcode := errorCode e
    valid := if isCode then false else s.valid
    abort := if setsAbort e && s.failfast then true else s.abort }

/-- The checks every secret-dependent command makes first, in the order of R255: ABORTED (R257),
then LENGTH_RANGE (R254). -/
def State.secretError (s : State) (len : Word) (max : Nat) : Option CmdError :=
  if s.abort then some .aborted
  else if max < len.toNat then some .lengthRange
  else none

/-! ### Writing what a command computes -/

/-- `COUNTER <- c; reg[SECREM] <- zext_32(s)` (R133). -/
def State.storeTimestep (s : State) (r : DWord × BitVec 6) : State :=
  { s with ctr := r.1, secrem := r.2 }

/-- The KEY buffer and KEYLEN after a decode of `r` (R108): all 160 bytes are written. -/
def State.storeKey (s : State) (r : Bytes) : State :=
  { s with
    key := s.key.writeBytes 0 (zeroFilled Config.keyMax r)
    keylen := BitVec.ofNat 32 r.length }

/-- What `gen_code` returns (spec/43_truncate_format.md R194). -/
structure CodeResult where
  /-- The HMAC digest `h`. -/
  digest : Vector Byte 20
  /-- `trunc_offset(h)`. -/
  offset : BitVec 4
  /-- `trunc_number(h)`. -/
  snum : BitVec 31
  /-- `trunc_code(h)`. -/
  code : BitVec 20
  /-- `format6(trunc_code(h))`. -/
  digits : Vector Byte 6
deriving DecidableEq, Repr

/-- `write_results` (R194). -/
def State.storeResults (s : State) (g : CodeResult) : State :=
  { s with
    digest := g.digest
    offset := g.offset
    snum := g.snum
    code := g.code
    digits := g.digits
    valid := true }

/-! ### The surroundings -/

/-- The same block in other surroundings. -/
def State.withEnv (s : State) (env : Env) : State := { s with env := env }

/-! ### Reset -/

/-- The hardware reset (R280): every field of R20 to its value of R281, whatever the block was
doing (R282). What surrounds the block stays (log 10). -/
def State.hardReset (s : State) : State := { State.reset with env := s.env }

/-- What SRST leaves (spec/44_control.md R232): the reset state with DONE = 1 and LASTOP = 0x07. -/
def State.softReset (s : State) : State :=
  { State.reset with env := s.env, done := true, lastop := 0x07 }

end Sys2Proof.Machine
end

