-- ==== Sys2Proof/Machine/Operands.lean ====
section
/-! DEFINITION. The implicit operands of the commands (spec/30_encoding.md R81, R83). TIME, COUNTER,
`abort`, `strict` and `failfast` are fields of State; the two that are computed stand here. -/

namespace Sys2Proof.Machine

/-- `TOKEN[0 : TOKLEN]`, the raw token bytes, spaces included (R36). -/
def tokenOperand (s : State) : Bytes := s.token.firstBytes s.toklen.toNat

/-- `KEY[0 : KEYLEN]`, the key bytes passed to HMAC-SHA1 (R37). -/
def keyOperand (s : State) : Bytes := s.key.firstBytes s.keylen.toNat

end Sys2Proof.Machine
end

