-- ==== Sys2Proof/Machine/Base32.lean ====
section
/-! DEFINITION. The base32 secret decoder (spec/40_base32.md) and the command B32DEC. -/

namespace Sys2Proof.Machine

/-- `up` of R101: ASCII 'a' to 'z' become 'A' to 'Z', every other byte stays. -/
def upperByte (b : Byte) : Byte :=
  if 0x61 ≤ b.toNat ∧ b.toNat ≤ 0x7A then b - 0x20 else b

/-- `clean` of R101: only the byte 0x20 is removed. -/
def clean (tok : Bytes) : Bytes := (tok.filter fun b => b ≠ 0x20).map upperByte

/-- `val` of R102, the RFC 4648 alphabet; none for a byte outside it. -/
def base32Val (c : Byte) : Option (BitVec 5) :=
  if 0x41 ≤ c.toNat ∧ c.toNat ≤ 0x5A then some (BitVec.ofNat 5 (c.toNat - 0x41))
  else if 0x32 ≤ c.toNat ∧ c.toNat ≤ 0x37 then some (BitVec.ofNat 5 (c.toNat - 0x32 + 26))
  else none

/-- The values of a cleaned token, none if any byte has no value (R103). -/
def base32Vals : Bytes → Option (List (BitVec 5))
  | [] => some []
  | c :: rest =>
    match base32Val c, base32Vals rest with
    | some v, some vs => some (v :: vs)
    | _, _ => none

/-- The bits of a value, most significant first. -/
def msbBits {w : Nat} (v : BitVec w) : List Bool := (List.range w).map v.getMsbD

/-- `bits` of R105: 5 bits a character, the first character's most significant bit first. -/
def valueBits (vs : List (BitVec 5)) : List Bool := vs.flatMap msbBits

/-- The byte whose bits, most significant first, are `bs`. -/
def byteOfBits (bs : List Bool) : Byte :=
  BitVec.ofNat 8 (bs.foldl (fun acc b => acc * 2 + b.toNat) 0)

/-- `out` of R105: the whole bytes of `bits`. -/
def wholeBytes : List Bool → Bytes
  | b0 :: b1 :: b2 :: b3 :: b4 :: b5 :: b6 :: b7 :: rest =>
    byteOfBits [b0, b1, b2, b3, b4, b5, b6, b7] :: wholeBytes rest
  | _ => []

/-- `tail` of R105: the bits after the last whole byte. -/
def tailBits : List Bool → List Bool
  | _ :: _ :: _ :: _ :: _ :: _ :: _ :: _ :: rest => tailBits rest
  | few => few

/-- `b32decode` (R107): total, one error at most, the first of B32_BADCHAR, B32_BADLEN,
B32_BADTAIL that applies. -/
def b32decode (tok : Bytes) (strict : Bool) : Except DecodeError Bytes :=
  match base32Vals (clean tok) with
  | none => .error .badChar
  | some vs =>
    if 5 ≤ (5 * vs.length) % 8 then .error .badLen
    else if strict && (tailBits (valueBits vs)).any id then .error .badTail
    else .ok (wholeBytes (valueBits vs))

/-- The character of a value: `val` of R102 read the other way. -/
def base32Char (v : BitVec 5) : Byte :=
  if v.toNat < 26 then BitVec.ofNat 8 (0x41 + v.toNat) else BitVec.ofNat 8 (0x32 + (v.toNat - 26))

/-- Five bits, most significant first, as a value. -/
def valueOfBits (bs : List Bool) : BitVec 5 :=
  BitVec.ofNat 5 (bs.foldl (fun acc b => acc * 2 + b.toNat) 0)

/-- The characters of a bit string, five bits each, the last group filled with zero bits. -/
def bitsToChars : List Bool → Bytes
  | [] => []
  | [b0] => [base32Char (valueOfBits [b0, false, false, false, false])]
  | [b0, b1] => [base32Char (valueOfBits [b0, b1, false, false, false])]
  | [b0, b1, b2] => [base32Char (valueOfBits [b0, b1, b2, false, false])]
  | [b0, b1, b2, b3] => [base32Char (valueOfBits [b0, b1, b2, b3, false])]
  | b0 :: b1 :: b2 :: b3 :: b4 :: rest =>
    base32Char (valueOfBits [b0, b1, b2, b3, b4]) :: bitsToChars rest

/-- The unpadded RFC 4648 base32 encoding (R110), upper-case, trailing bits zero. No command
computes it: it is what R110's round trip is stated with. -/
def b32encode (bytes : Bytes) : Bytes := bitsToChars (bytes.flatMap msbBits)

/-- B32DEC (R108). -/
def execB32dec (s : State) : Result :=
  match s.secretError s.toklen Config.tokMax with
  | some e => .next (s.raise false e)
  | none =>
    match b32decode (tokenOperand s) s.strict with
    | .error e => .next (s.raise false (.decode e))
    | .ok r => .next (s.storeKey r).complete

end Sys2Proof.Machine
end

