-- ==== Sys2Proof/Machine/Sha1.lean ====
section
/-! DEFINITION. The reference SHA-1 (spec/42_hmac_sha1.md R161 to R166, which the spec gives from
general knowledge and makes normative, spec/93_implementation_defined.md I3). -/

namespace Sys2Proof.Machine

/-- The five chaining words, and the working variables a to e. -/
structure Sha1Words where
  a : Word
  b : Word
  c : Word
  d : Word
  e : Word
deriving DecidableEq, Repr

/-- `ROTL_n` (R162). -/
def rotl (n : Nat) (x : Word) : Word := (x <<< n) ||| (x >>> (32 - n))

/-- `f_t(b, c, d)` (R163). -/
def sha1F (t : Nat) (b c d : Word) : Word :=
  if t < 20 then (b &&& c) ||| (~~~b &&& d)
  else if t < 40 then b ^^^ c ^^^ d
  else if t < 60 then (b &&& c) ||| (b &&& d) ||| (c &&& d)
  else b ^^^ c ^^^ d

/-- `K_t` (R163). -/
def sha1K (t : Nat) : Word :=
  if t < 20 then 0x5A827999
  else if t < 40 then 0x6ED9EBA1
  else if t < 60 then 0x8F1BBCDC
  else 0xCA62C1D6

/-- The initial hash value (R164). -/
def sha1Init : Sha1Words := ⟨0x67452301, 0xEFCDAB89, 0x98BADCFE, 0x10325476, 0xC3D2E1F0⟩

/-- `z` of R161: how many zero bytes the padding of an `n`-byte message has. -/
def sha1ZeroCount (n : Nat) : Nat := (64 - (n + 9) % 64) % 64

/-- `pad(M)` (R161). -/
def sha1Pad (m : Bytes) : Bytes :=
  m ++ [0x80] ++ List.replicate (sha1ZeroCount m.length) 0 ++
    dwordBytes (BitVec.ofNat 64 (8 * m.length))

/-- The big-endian words of a byte string (R162). -/
def beWords : Bytes → List Word
  | a :: b :: c :: d :: rest => packWord a b c d :: beWords rest
  | _ => []

/-- The first `n` blocks of 16 words (R161). -/
def sha1Blocks : Nat → List Word → List (List Word)
  | 0, _ => []
  | n + 1, ws => ws.take 16 :: sha1Blocks n (ws.drop 16)

/-- `n` more words of the message schedule (R162), on the words so far, the latest first. -/
def extendSchedule : Nat → List Word → List Word
  | 0, rev => rev
  | n + 1, rev =>
    extendSchedule n
      (rotl 1 (rev.getD 2 0 ^^^ rev.getD 7 0 ^^^ rev.getD 13 0 ^^^ rev.getD 15 0) :: rev)

/-- `W_0` to `W_79` of a block (R162). -/
def sha1Schedule (block : List Word) : List Word := (extendSchedule 64 block.reverse).reverse

/-- One round of R165. -/
def sha1Round (t : Nat) (w : Word) (v : Sha1Words) : Sha1Words where
  a := rotl 5 v.a + sha1F t v.b v.c v.d + v.e + sha1K t + w
  b := v.a
  c := rotl 30 v.b
  d := v.c
  e := v.d

/-- The rounds from `t` on, one a schedule word. -/
def sha1Rounds : Nat → List Word → Sha1Words → Sha1Words
  | _, [], v => v
  | t, w :: ws, v => sha1Rounds (t + 1) ws (sha1Round t w v)

/-- The compression of one block (R165). -/
def sha1Compress (h : Sha1Words) (block : List Word) : Sha1Words :=
  let v := sha1Rounds 0 (sha1Schedule block) h
  ⟨h.a + v.a, h.b + v.b, h.c + v.c, h.d + v.d, h.e + v.e⟩

/-- The chaining words after every block of the padded message. -/
def sha1Words (m : Bytes) : Sha1Words :=
  (sha1Blocks ((sha1Pad m).length / 64) (beWords (sha1Pad m))).foldl sha1Compress sha1Init

/-- The output of R166, as 20 bytes. -/
def sha1Output (h : Sha1Words) : Vector Byte 20 :=
  #v[h.a.extractLsb' 24 8, h.a.extractLsb' 16 8, h.a.extractLsb' 8 8, h.a.extractLsb' 0 8,
    h.b.extractLsb' 24 8, h.b.extractLsb' 16 8, h.b.extractLsb' 8 8, h.b.extractLsb' 0 8,
    h.c.extractLsb' 24 8, h.c.extractLsb' 16 8, h.c.extractLsb' 8 8, h.c.extractLsb' 0 8,
    h.d.extractLsb' 24 8, h.d.extractLsb' 16 8, h.d.extractLsb' 8 8, h.d.extractLsb' 0 8,
    h.e.extractLsb' 24 8, h.e.extractLsb' 16 8, h.e.extractLsb' 8 8, h.e.extractLsb' 0 8]

/-- `SHA1(M)` (R166). -/
def sha1 (m : Bytes) : Vector Byte 20 := sha1Output (sha1Words m)

end Sys2Proof.Machine
end

