-- ==== Sys2Proof/Machine/Hmac.lean ====
section
/-! DEFINITION. The HMAC-SHA1 processor (spec/42_hmac_sha1.md): the reference instance R160, and
which processor this build of the block has (R152). -/

namespace Sys2Proof.Machine

/-- `k0` of R160: a key longer than 64 bytes is hashed first, then zeros up to 64 bytes. -/
def hmacBlockKey (key : Bytes) : Bytes :=
  zeroFilled 64 (if 64 < key.length then (sha1 key).toList else key)

/-- The reference HMAC on a message of any length (R160). -/
def hmacRefBytes (key msg : Bytes) : Vector Byte 20 :=
  sha1 ((hmacBlockKey key).map (· ^^^ 0x5C) ++
    (sha1 ((hmacBlockKey key).map (· ^^^ 0x36) ++ msg)).toList)

/-- `HMAC_SHA1_ref` (R160). -/
def hmacRef : HmacProcessor := fun key msg => hmacRefBytes key msg.toList

/-- The processor this build has (R152), the argument `HMAC_SHA1` of the model (R9, I11) at which
`exec` is instantiated: the reference instance. R152 asks every processor to agree with RFC 2104
over FIPS 180-4, which is what R160 transcribes. DESIGN CHOICE (log 3), unsafe if that
transcription were wrong. Every operation below `exec` takes the processor as an argument. -/
def hmacProcessor : HmacProcessor := hmacRef

end Sys2Proof.Machine
end

