-- ==== Sys2Proof/Machine/TimeStep.lean ====
section
/-! DEFINITION. The counter encoder and the time-step clock (spec/41_counter_timestep.md), and the
command TSTEP. -/

namespace Sys2Proof.Machine

/-- `counter_encode` (R130): the 8 bytes of the counter, most significant first, by its bit
pattern. -/
def counterEncode (n : DWord) : Vector Byte 8 :=
  #v[n.extractLsb' 56 8, n.extractLsb' 48 8, n.extractLsb' 40 8, n.extractLsb' 32 8,
    n.extractLsb' 24 8, n.extractLsb' 16 8, n.extractLsb' 8 8, n.extractLsb' 0 8]

/-- `timestep` (R132): `( T div 30 , 30 - (T mod 30) )`, exact unsigned arithmetic. -/
def timestep (t : DWord) : DWord × BitVec 6 :=
  (BitVec.ofNat 64 (t.toNat / Config.stepSeconds),
    BitVec.ofNat 6 (Config.stepSeconds - t.toNat % Config.stepSeconds))

/-- TSTEP (R133): it always succeeds and is not gated by the fail-fast latch. -/
def execTstep (s : State) : Result := .next (s.storeTimestep (timestep s.time)).complete

end Sys2Proof.Machine
end

