-- ==== Sys2Proof/Machine/Codes.lean ====
section
/-! DEFINITION. Dynamic truncation, the 6-digit formatter and the code commands HOTP, TOTP and
ROWCODE (spec/43_truncate_format.md). Each command is written for an arbitrary HMAC-SHA1
processor `H` (spec/42_hmac_sha1.md R152) and instantiated with the build's. -/

namespace Sys2Proof.Machine

/-- `trunc_offset` (R190): `h[19] & 0x0F`. -/
def truncOffset (h : Vector Byte 20) : BitVec 4 := (h[19] &&& 0x0F).setWidth 4

/-- Byte `o + i` of the window that starts at `o`, always inside the digest (R190). -/
def windowByte (h : Vector Byte 20) (o : BitVec 4) (i : Fin 4) : Byte :=
  h[o.toNat + i.val]'(by omega)

/-- `trunc_number` (R191): the four window bytes, big-endian, the top bit cleared. -/
def truncNumber (h : Vector Byte 20) : BitVec 31 :=
  let o := truncOffset h
  ((windowByte h o 0 &&& 0x7F).setWidth 31 <<< 24) ||| ((windowByte h o 1).setWidth 31 <<< 16) |||
    ((windowByte h o 2).setWidth 31 <<< 8) ||| (windowByte h o 3).setWidth 31

/-- `number mod 1000000` (R192). -/
def reduceCode (number : BitVec 31) : BitVec 20 := BitVec.ofNat 20 (number.toNat % Config.modulus)

/-- `trunc_code` (R192). -/
def truncCode (h : Vector Byte 20) : BitVec 20 := reduceCode (truncNumber h)

/-- The ASCII digit of weight 10^k (R193). -/
def asciiDigit (code : BitVec 20) (k : Nat) : Byte :=
  BitVec.ofNat 8 (0x30 + code.toNat / 10 ^ k % 10)

/-- `format6` (R193): the most significant digit first. -/
def format6 (code : BitVec 20) : Vector Byte 6 :=
  #v[asciiDigit code 5, asciiDigit code 4, asciiDigit code 3, asciiDigit code 2, asciiDigit code 1,
    asciiDigit code 0]

/-- What the generator answers for a digest (R194). -/
def resultOfDigest (h : Vector Byte 20) : CodeResult where
  digest := h
  offset := truncOffset h
  snum := truncNumber h
  code := truncCode h
  digits := format6 (truncCode h)

/-- `gen_code` (R194). -/
def genCode (H : HmacProcessor) (key : Bytes) (c : DWord) : CodeResult :=
  resultOfDigest (H key (counterEncode c))

/-- HOTP on any processor (R195). -/
def hotpOn (H : HmacProcessor) (s : State) : Result :=
  match s.secretError s.keylen Config.keyMax with
  | some e => .next (s.raise true e)
  | none => .next (s.storeResults (genCode H (keyOperand s) s.ctr)).complete

/-- TOTP on any processor (R196). -/
def totpOn (H : HmacProcessor) (s : State) : Result :=
  match s.secretError s.keylen Config.keyMax with
  | some e => .next (s.raise true e)
  | none =>
    .next ((s.storeTimestep (timestep s.time)).storeResults
      (genCode H (keyOperand s) (timestep s.time).1)).complete

/-- ROWCODE on any processor (R197). -/
def rowcodeOn (H : HmacProcessor) (s : State) : Result :=
  match s.secretError s.toklen Config.tokMax with
  | some e => .next (s.raise true e)
  | none =>
    match b32decode (tokenOperand s) s.strict with
    | .error e => .next (s.raise true (.decode e))
    | .ok r => .next ((s.storeKey r).storeResults (genCode H r s.ctr)).complete

/-- HOTP (R195). -/
def execHotp (s : State) : Result := hotpOn hmacProcessor s

/-- TOTP (R196). -/
def execTotp (s : State) : Result := totpOn hmacProcessor s

/-- ROWCODE (R197). -/
def execRowcode (s : State) : Result := rowcodeOn hmacProcessor s

end Sys2Proof.Machine
end

