-- ==== Sys2Proof/Machine/Control.lean ====
section
/-! DEFINITION. The control commands (spec/44_control.md): NOP, CLRERR, SRST. -/

namespace Sys2Proof.Machine

/-- NOP (R230): do nothing and complete. -/
def execNop (s : State) : Result := .next s.complete

/-- CLRERR (R231): clear the fail-fast latch and the overrun flag. -/
def execClrerr (s : State) : Result := .next s.clearLatches.complete

/-- SRST (R232): software reset. -/
def execSrst (s : State) : Result := .next s.softReset

end Sys2Proof.Machine
end

