-- ==== Sys2Proof/Machine/Dispatch.lean ====
section
/-! DEFINITION. One arm per command (spec/30_encoding.md R82): which meaning runs. -/

namespace Sys2Proof.Machine

def exec (i : Instr) (s : State) : Host.Outcome State Fault Refusal :=
  match i with
  | .nop => Sys2Proof.Machine.execNop s
  | .b32dec => Sys2Proof.Machine.execB32dec s
  | .tstep => Sys2Proof.Machine.execTstep s
  | .hotp => Sys2Proof.Machine.execHotp s
  | .totp => Sys2Proof.Machine.execTotp s
  | .rowcode => Sys2Proof.Machine.execRowcode s
  | .clrerr => Sys2Proof.Machine.execClrerr s
  | .srst => Sys2Proof.Machine.execSrst s

end Sys2Proof.Machine
end

