-- ==== Sys2Proof/Machine/Registers.lean ====
section
/-! DEFINITION. The register map (spec/10_state.md R21) and what a defined host access does
(spec/20_memory.md R67 to R69). -/

namespace Sys2Proof.Machine

/-- A 32-bit word of the window, by its name in R21. -/
inductive Reg where
  | id
  | config
  | cmd
  | status
  | timeHi
  | timeLo
  | ctrHi
  | ctrLo
  | secrem
  | toklen
  | keylen
  | code
  | digitsHi
  | digitsLo
  | offset
  | snum
  /-- DIGEST0 to DIGEST4. -/
  | digest (j : Fin 5)
  | param
  | const
  /-- TOKEN word 0 to 63. -/
  | token (j : Fin 64)
  /-- KEY word 0 to 39. -/
  | key (j : Fin 40)
  /-- Any offset R21 does not list (R47). -/
  | reserved
deriving DecidableEq, Repr

/-- The access column of R21. -/
inductive RegAccess where
  /-- Read-write. -/
  | rw
  /-- Read-only: writes are ignored. -/
  | ro
  /-- Write-only: reads return 0. -/
  | wo
  /-- Reads as zero, writes ignored. -/
  | razwi
deriving DecidableEq, Repr

/-- The rows of R21 below the buffers. -/
def regMap : List (Nat × Reg) :=
  [(0x000, .id), (0x004, .config), (0x008, .cmd), (0x00C, .status)] ++
  [(0x010, .timeHi), (0x014, .timeLo), (0x018, .ctrHi), (0x01C, .ctrLo)] ++
  [(0x020, .secrem), (0x024, .toklen), (0x028, .keylen), (0x02C, .code)] ++
  [(0x030, .digitsHi), (0x034, .digitsLo), (0x038, .offset), (0x03C, .snum)] ++
  [(0x040, .digest 0), (0x044, .digest 1), (0x048, .digest 2), (0x04C, .digest 3)] ++
  [(0x050, .digest 4), (0x058, .param), (0x05C, .const)]

/-- The register at an aligned offset of the window (R21): the rows above, the two buffers, and
everything else reserved (R47). -/
def regAt (off : Nat) : Reg :=
  match regMap.lookup off with
  | some r => r
  | none =>
    if h : 0x100 ≤ off ∧ off < 0x200 then .token ⟨(off - 0x100) / 4, by omega⟩
    else if h : 0x200 ≤ off ∧ off < 0x2A0 then .key ⟨(off - 0x200) / 4, by omega⟩
    else .reserved

/-- The access column of R21. -/
def Reg.access : Reg → RegAccess
  | .id => .ro
  | .config => .rw
  | .cmd => .wo
  | .status => .ro
  | .timeHi => .rw
  | .timeLo => .rw
  | .ctrHi => .rw
  | .ctrLo => .rw
  | .secrem => .ro
  | .toklen => .rw
  | .keylen => .rw
  | .code => .ro
  | .digitsHi => .ro
  | .digitsLo => .ro
  | .offset => .ro
  | .snum => .ro
  | .digest _ => .ro
  | .param => .ro
  | .const => .ro
  | .token _ => .rw
  | .key _ => .rw
  | .reserved => .razwi

/-- The registers that read exactly while BUSY = 1 (R69): ID, CONFIG, STATUS, PARAM, CONST and
the reserved offsets. CMD is not in R69's list, so its read is open while BUSY = 1 (log 6). -/
def Reg.exactWhileBusy : Reg → Bool
  | .id => true
  | .config => true
  | .cmd => false
  | .status => true
  | .timeHi => false
  | .timeLo => false
  | .ctrHi => false
  | .ctrLo => false
  | .secrem => false
  | .toklen => false
  | .keylen => false
  | .code => false
  | .digitsHi => false
  | .digitsLo => false
  | .offset => false
  | .snum => false
  | .digest _ => false
  | .param => true
  | .const => true
  | .token _ => false
  | .key _ => false
  | .reserved => true

/-- Word `j` of the digest (R42). -/
def digestWord (h : Vector Byte 20) (j : Fin 5) : Word :=
  packWord h[4 * j.val] h[4 * j.val + 1] h[4 * j.val + 2] h[4 * j.val + 3]

/-- The value a register holds (R22 to R47). -/
def readReg (s : State) : Reg → Word
  | .id => 0x544F5450
  | .config => configWord s
  | .cmd => 0
  | .status => statusWord s
  | .timeHi => hiWord s.time
  | .timeLo => loWord s.time
  | .ctrHi => hiWord s.ctr
  | .ctrLo => loWord s.ctr
  | .secrem => s.secrem.setWidth 32
  | .toklen => s.toklen
  | .keylen => s.keylen
  | .code => s.code.setWidth 32
  | .digitsHi => packWord s.digits[0] s.digits[1] s.digits[2] s.digits[3]
  | .digitsLo => packWord s.digits[4] s.digits[5] 0 0
  | .offset => s.offset.setWidth 32
  | .snum => s.snum.setWidth 32
  | .digest j => digestWord s.digest j
  | .param => 0x00A00100
  | .const => 0x0000061E
  | .token j => s.token.readWord j.val
  | .key j => s.key.readWord j.val
  | .reserved => 0

/-- What an accepted write of `v` stores (the last three lines of R68). The registers a write does
not reach are left as they are. -/
def writeReg (s : State) (v : Word) : Reg → State
  | .id => s
  | .config => { s with failfast := v.getLsbD 0, strict := v.getLsbD 1 }
  | .cmd => s.accept v
  | .status => s
  | .timeHi => { s with time := dword v (loWord s.time) }
  | .timeLo => { s with time := dword (hiWord s.time) v }
  | .ctrHi => { s with ctr := dword v (loWord s.ctr) }
  | .ctrLo => { s with ctr := dword (hiWord s.ctr) v }
  | .secrem => s
  | .toklen => { s with toklen := v }
  | .keylen => { s with keylen := v }
  | .code => s
  | .digitsHi => s
  | .digitsLo => s
  | .offset => s
  | .snum => s
  | .digest _ => s
  | .param => s
  | .const => s
  | .token j => { s with token := s.token.writeWord j.val v }
  | .key j => { s with key := s.key.writeWord j.val v }
  | .reserved => s

/-- A draw of the next free value (R69; log 2). -/
def State.draw (s : State) : Word × State :=
  (Config.busyRead s.env.draws, { s with env := { s.env with draws := s.env.draws + 1 } })

/-- An aligned 32-bit read (R67, R69): the value, and the state after it. -/
def busRead (s : State) (r : Reg) : Word × State :=
  if s.busy && !r.exactWhileBusy then s.draw else (readReg s r, s)

/-- An aligned 32-bit write (R68). -/
def busWrite (s : State) (r : Reg) (v : Word) : State :=
  match r.access with
  | .razwi => s
  | .ro => s
  | .wo => if s.busy then s.dropWrite else writeReg s v r
  | .rw => if s.busy then s.dropWrite else writeReg s v r

end Sys2Proof.Machine
end

