-- ==== Sys2Proof/Machine/Agents.lean ====
section
/-! DEFINITION. The two agents (spec/00_scope.md R8): the host with its bus accesses and its program
(spec/20_memory.md, spec/30_encoding.md R87), and the sequencer (spec/10_state.md R26). Also the
hardware reset input (spec/70_reset_and_hazards.md R280), and which event comes next. -/

namespace Sys2Proof.Machine

/-! ### The host's bus accesses -/

/-- The access lies in the window (R60). -/
def inWindow (off : Int) : Bool := 0 ≤ off && off < Config.windowBytes

/-- The only defined access (R62): 4 bytes, aligned. -/
def definedAccess (size : AccessSize) (off : Int) : Bool := size = .four && off % 4 = 0

/-- Host variable `x` takes the value read (R87). -/
def State.bindVar (s : State) (x : Nat) (v : Word) : State :=
  { s with env := { s.env with vars := (x, v) :: s.env.vars } }

/-- A host access (R60 to R63): outside the window it does not reach the block; inside, of the
wrong size or alignment, it is a BusFault. A read outside binds no host variable (log 7). -/
def hostAccess (s : State) : Access → Result
  | .read size off x =>
    if inWindow off then
      if definedAccess size off then
        .next ((busRead s (regAt off.toNat)).2.bindVar x (busRead s (regAt off.toNat)).1)
      else .fault (.busFault (Config.totpBase + off))
    else .next s
  | .write size off v =>
    if inWindow off then
      if definedAccess size off then .next (busWrite s (regAt off.toNat) v)
      else .fault (.busFault (Config.totpBase + off))
    else .next s

/-- `MemRead(addr, size)` at a platform address (R13, R60). -/
def memRead (s : State) (addr : Nat) (size : AccessSize) (x : Nat) : Result :=
  hostAccess s (.read size (offsetOf Config.totpBase addr) x)

/-- `MemWrite(addr, size, v)` at a platform address (R13, R60). -/
def memWrite (s : State) (addr : Nat) (size : AccessSize) (v : Word) : Result :=
  hostAccess s (.write size (offsetOf Config.totpBase addr) v)

/-! ### The host's program (R87) -/

/-- The value of host variable `x`: the latest read into it, else a free value (log 9). -/
def lookupVar : List (Nat × Word) → Nat → Word
  | [], x => Config.hostVarInit x
  | (y, v) :: rest, x => if y = x then v else lookupVar rest x

/-- The value of a host term. -/
def evalTerm (vars : List (Nat × Word)) : HostTerm → Word
  | .lit v => v
  | .var x => lookupVar vars x
  | .field t hi lo => ((evalTerm vars t).extractLsb' lo (hi + 1 - lo)).setWidth 32

/-- The truth of a host condition; comparisons are unsigned (R11). -/
def evalCond (vars : List (Nat × Word)) : HostCond → Bool
  | .eq a b => evalTerm vars a = evalTerm vars b
  | .lt a b => (evalTerm vars a).toNat < (evalTerm vars b).toNat
  | .not c => !evalCond vars c
  | .and c d => evalCond vars c && evalCond vars d

/-- The host goes on to the statement at `pc`. -/
def State.hostGoto (s : State) (pc : Nat) : State :=
  { s with env := { s.env with hostPc := pc } }

/-- The host goes on to the next statement. -/
def State.hostAdvance (s : State) : State := s.hostGoto (s.env.hostPc + 1)

/-- The host's program has executed `stop` (R87). -/
def State.hostStop (s : State) : State :=
  { s with env := { s.env with hostStopped := true } }

/-- One statement of the host's program (R87). -/
def hostStmt (s : State) : Stmt → Result
  | .label _ => .next s.hostAdvance
  | .wr off v => hostAccess s.hostAdvance (.write .four off v)
  | .rd off x => hostAccess s.hostAdvance (.read .four off x)
  | .cmd i => hostAccess s.hostAdvance (.write .four 0x008 (encode i))
  | .ifGoto c l =>
    if evalCond s.env.vars c then
      match labelIndex l s.env.program with
      | some k => .next (s.hostGoto k)
      | none => .fault (.undefinedLabel l)
    else .next s.hostAdvance
  | .stop => .next s.hostStop

/-- The host's step: the statement at its program counter; a program that runs off its end has
stopped (log 8); a stopped host does nothing. -/
def hostStep (s : State) : Result :=
  if s.env.hostStopped then .next s
  else
    match s.env.program[s.env.hostPc]? with
    | some st => hostStmt s st
    | none => .next s.hostStop

/-- The statements of a list one after another, for a piece of a program without branches. -/
def runStmts : List Stmt → State → Result
  | [], s => .next s
  | st :: rest, s =>
    match hostStmt s st with
    | .next t => runStmts rest t
    | .fault r => .fault r
    | .refused r => .refused r

/-- A program is given to the host, at its first line (log 5). -/
def State.withHostProgram (s : State) (p : List Stmt) : State :=
  { s with env := { s.env with program := p, hostPc := 0, hostStopped := false } }

/-! ### The sequencer -/

/-- The error completion of an illegal word (R84). -/
def illegalWord (s : State) : Result := .next (s.raise false .illegalCmd)

/-- The sequencer's step (R26): with BUSY = 1 it decodes and executes `pending` (R85: decoding
happens here, not at acceptance); with BUSY = 0 it has no step. -/
def sequencerStep (s : State) : Result :=
  if s.busy then
    match decodeCommand s.pending with
    | .ok i => exec i s
    | .error _ => illegalWord s
  else .next s

/-! ### Events -/

/-- One event (R72). -/
def perform (e : Event) (s : State) : Result :=
  match e with
  | .sequencer => sequencerStep s
  | .host => hostStep s
  | .access a => hostAccess s a
  | .hardReset => .next s.hardReset

/-- The surroundings with another agenda. -/
def State.setAgenda (s : State) (es : List Event) : State :=
  { s with env := { s.env with agenda := es } }

/-- The event that comes next, and the state it comes in: the first of the agenda; when the agenda
is empty, a pending command completes (R26, R290), and else the host goes on with its program
(DESIGN CHOICE, log 1: any finite interleaving is an agenda). -/
def nextEvent (s : State) : Event × State :=
  match s.env.agenda with
  | e :: rest => (e, s.setAgenda rest)
  | [] => (if s.busy then .sequencer else .host, s)

/-- The state in which `w` has been accepted and the sequencer's step comes next (log 5). -/
def State.acceptedNext (s : State) (w : Word) : State :=
  (s.accept w).setAgenda (.sequencer :: s.env.agenda)

end Sys2Proof.Machine
end

