-- ==== Sys2Proof/Machine/Step.lean ====
section
/-! DEFINITION. One step of the machine: the next event of the one total order of host accesses and
sequencer steps (spec/20_memory.md R72). -/

namespace Sys2Proof.Machine

/-- One step: the next event happens. -/
def step (s : State) : Host.Outcome State Fault Refusal :=
  perform (nextEvent s).1 (nextEvent s).2

/-- The state in which the next step runs the command whose table word is `w`: the block fetches
nothing (R49), so this is the acceptance of the word (R24) with the sequencer's step next. -/
def State.withFetchWord (s : State) (nbits w : Nat) : State :=
  s.acceptedNext (BitVec.ofNat 32 (w % 2 ^ nbits))

end Sys2Proof.Machine
end

