-- ==== Sys2Proof/WellFormed.lean ====
section
/-! DEFINITION. Which terms are well formed: commands, command words (spec/30_encoding.md R80,
R84) and host programs (R87, R62). -/

namespace Sys2Proof

/-- Every command is well formed: it has no operand field that could be out of range (R81). -/
def Instr.wf : Instr → Bool
  | .nop => true
  | .b32dec => true
  | .tstep => true
  | .hotp => true
  | .totp => true
  | .rowcode => true
  | .clrerr => true
  | .srst => true

/-- A legal command word (R84): RSV is 0 and OPC is below 0x08. -/
def commandWordWf (w : Word) : Bool :=
  rsvField w = 0 && decide ((opcField w).toNat < 8)

namespace Machine

/-- An offset the host may use (R60, R62): inside the window and a multiple of 4. -/
def offsetWf (off : Nat) : Bool := off < Config.windowBytes && off % 4 = 0

/-- The labels a program defines (R87). -/
def labelsOf : List Stmt → List Nat
  | [] => []
  | .label l :: rest => l :: labelsOf rest
  | _ :: rest => labelsOf rest

/-- A field of a host term lies inside the 32 bits of a word (R11). -/
def HostTerm.wf : HostTerm → Bool
  | .lit _ => true
  | .var _ => true
  | .field t hi lo => t.wf && lo ≤ hi && hi < 32

/-- Every term of a host condition is well formed. -/
def HostCond.wf : HostCond → Bool
  | .eq a b => a.wf && b.wf
  | .lt a b => a.wf && b.wf
  | .not c => c.wf
  | .and c d => c.wf && d.wf

/-- A statement is well formed among the labels its program defines. -/
def Stmt.wf (labels : List Nat) : Stmt → Bool
  | .label _ => true
  | .wr off _ => offsetWf off
  | .rd off _ => offsetWf off
  | .cmd i => i.wf
  | .ifGoto c l => c.wf && labels.contains l
  | .stop => true

/-- A host program is well formed: each label stands once (DESIGN CHOICE, log 17: R87 does not say
so), and every statement is. -/
def programWf (p : List Stmt) : Bool :=
  decide (labelsOf p).Nodup && p.all (Stmt.wf (labelsOf p))

end Machine

end Sys2Proof
end

