-- ==== Sys2Proof/Safety.lean ====
section
/-! DEFINITION. What a good state and a safe run are, in the terms the statements use: the
invariants of spec/10_state.md R53, the relation between a digest and the result registers
(spec/43_truncate_format.md R190 to R193) in plain arithmetic, and the end of a host program
(spec/70_reset_and_hazards.md R292). -/

namespace Sys2Proof.Machine

/-- HOTP, TOTP and ROWCODE: the commands that produce a code (R253). -/
def isCodeCommand : Instr → Bool
  | .nop => false
  | .b32dec => false
  | .tstep => false
  | .hotp => true
  | .totp => true
  | .rowcode => true
  | .clrerr => false
  | .srst => false

/-- B32DEC and ROWCODE: the commands that decode a token. -/
def isDecodeCommand : Instr → Bool
  | .nop => false
  | .b32dec => true
  | .tstep => false
  | .hotp => false
  | .totp => false
  | .rowcode => true
  | .clrerr => false
  | .srst => false

/-- The reserved offsets of R47. -/
abbrev IsReservedOffset (off : Nat) : Prop :=
  off = 0x054 ∨ (0x060 ≤ off ∧ off < 0x100) ∨ 0x2A0 ≤ off

/-- The read-only offsets of R21 and R68: ID, STATUS, SECREM, CODE to DIGEST4, PARAM, CONST. -/
abbrev IsReadOnlyOffset (off : Nat) : Prop :=
  off = 0x000 ∨ off = 0x00C ∨ off = 0x020 ∨ (0x02C ≤ off ∧ off < 0x054) ∨ off = 0x058 ∨
    off = 0x05C

/-- CMD and the read-write offsets of R21: those a write reaches. -/
abbrev IsWritableOffset (off : Nat) : Prop :=
  off = 0x004 ∨ off = 0x008 ∨ (0x010 ≤ off ∧ off < 0x020) ∨ off = 0x024 ∨ off = 0x028 ∨
    (0x100 ≤ off ∧ off < 0x2A0)

/-- The offsets that read exactly while BUSY = 1 (R69): ID, CONFIG, STATUS, PARAM, CONST and the
reserved ones. -/
abbrev ReadsWhileBusy (off : Nat) : Prop :=
  off = 0x000 ∨ off = 0x004 ∨ off = 0x00C ∨ off = 0x058 ∨ off = 0x05C ∨ IsReservedOffset off

/-- The success completion of R252 holds in `t`. -/
abbrev Succeeded (t : State) : Prop :=
  t.busy = false ∧ t.done = true ∧ t.err = false ∧ t.errcode = 0

/-- The error completion of R253 with this ERRCODE holds in `t`. -/
abbrev FailedWith (t : State) (code : BitVec 4) : Prop :=
  t.busy = false ∧ t.done = true ∧ t.err = true ∧ t.errcode = code

/-- The big-endian number of the window at `o` of a digest, its top bit cleared (R191), in
arithmetic. -/
def windowNumber (h : Vector Byte 20) (o : Nat) : Nat :=
  (h.toList.getD o 0).toNat % 128 * 2 ^ 24 + (h.toList.getD (o + 1) 0).toNat * 2 ^ 16 +
    (h.toList.getD (o + 2) 0).toNat * 2 ^ 8 + (h.toList.getD (o + 3) 0).toNat

/-- The numeral `ds` of ASCII digits read in base ten. -/
def decimalValue (ds : Bytes) : Nat := ds.foldl (fun acc b => acc * 10 + (b.toNat - 0x30)) 0

/-- A byte is an ASCII digit (R193). -/
abbrev IsAsciiDigit (b : Byte) : Prop := 0x30 ≤ b.toNat ∧ b.toNat ≤ 0x39

/-- The result registers of `t` are those of the digest `h` (R190 to R194), in arithmetic. -/
abbrev ResultsOf (h : Vector Byte 20) (t : State) : Prop :=
  t.digest = h ∧ t.offset.toNat = (h.toList.getD 19 0).toNat % 16 ∧
    t.snum.toNat = windowNumber h t.offset.toNat ∧ t.code.toNat = t.snum.toNat % 1000000 ∧
    (∀ b ∈ t.digits.toList, IsAsciiDigit b) ∧ decimalValue t.digits.toList = t.code.toNat ∧
    t.valid = true

/-- The buffers hold what R20 gives them: canonical lists over 256 and 160 bytes. -/
abbrev BuffersWf (s : State) : Prop :=
  s.token.wf = true ∧ s.token.within Config.tokMax = true ∧ s.key.wf = true ∧
    s.key.within Config.keyMax = true

/-- The range invariants of R53, and R251's: no reserved error code is ever produced. -/
abbrev RangesOk (s : State) : Prop :=
  s.secrem.toNat ≤ 30 ∧ s.code.toNat < 1000000 ∧ s.errcode.toNat ≤ 6 ∧
    ((∀ b ∈ s.digits.toList, b = 0) ∨ ∀ b ∈ s.digits.toList, IsAsciiDigit b)

/-- The STATUS invariants of R53, and R48's: LASTOP is the low byte of the pending word. -/
abbrev StatusOk (s : State) : Prop :=
  (s.err = true ↔ s.errcode ≠ 0) ∧ (s.busy = true → s.done = false) ∧
    (s.busy = true → s.lastop = opcField s.pending)

/-- The result invariant of R53 and R29. -/
abbrev ResultsOk (s : State) : Prop :=
  s.valid = true → ResultsOf s.digest s ∧ s.digits = format6 s.code

/-- Every invariant of R53, and with them those of R48 (LASTOP), R251 (no reserved error code) and
R191 (SNUM is DIGEST's window), and the canonical form of the buffers (log 13). -/
abbrev BlockInv (s : State) : Prop := BuffersWf s ∧ RangesOk s ∧ StatusOk s ∧ ResultsOk s

/-- Everything the block holds (R20) is the same in `s` and `t`: only the surroundings differ. -/
abbrev SameBlock (s t : State) : Prop := t.withEnv s.env = s

/-- The event that comes next in `s` is a 4-byte write at offset `off`: a bus access from outside the
host's program, or the program's `wr`, or its `cmd`, which writes CMD (R87). -/
abbrev NextIsWrite (s : State) (off : Nat) : Prop :=
  (∃ v, (nextEvent s).1 = .access (.write .four off v)) ∨
    ((nextEvent s).1 = .host ∧ s.env.hostStopped = false ∧
      ((∃ v, s.env.program[s.env.hostPc]? = some (.wr off v)) ∨
        (off = 0x008 ∧ ∃ i, s.env.program[s.env.hostPc]? = some (.cmd i))))

/-- A host program has ended (R292). -/
abbrev HostProgramEnded (s : State) : Prop := s.env.hostStopped = true ∧ s.busy = false

/-- A run of `k` steps meets no fault and no refusal. -/
def SafeRun (k : Nat) (s : State) : Prop :=
  ∃ t, Host.Core.run Sys2Proof.core k s = .next t

end Sys2Proof.Machine
end

