-- ==== Sys2Proof/Certificates/Slice0/Obligations.lean ====
section
/-! DEFINITION. The statements about the machine, for the provers: each formalises the rules of
spec/ its docstring names. -/

open Sys2Proof Sys2Proof.Machine

/-! ### The command word -/

/-- R82: the eight words of the opcode map select their commands, and every word with bits 31:8 not
0 or an opcode of 8 or more is illegal, and no other. -/
def Obligations.OpcodeMapSelectsCommand : Prop :=
  (decodeCommand 0x00000000 = .ok .nop ∧ decodeCommand 0x00000001 = .ok .b32dec ∧
    decodeCommand 0x00000002 = .ok .tstep ∧ decodeCommand 0x00000003 = .ok .hotp ∧
    decodeCommand 0x00000004 = .ok .totp ∧ decodeCommand 0x00000005 = .ok .rowcode ∧
    decodeCommand 0x00000006 = .ok .clrerr ∧ decodeCommand 0x00000007 = .ok .srst) ∧
  ∀ w : Word, (w.toNat / 256 ≠ 0 ∨ 8 ≤ w.toNat % 256) ↔ ∃ r, decodeCommand w = .error r

/-- Decode and encode agree: every well-formed command's word decodes to it, a word decodes to a
command only if it is that command's word, and two commands never share a word. -/
def Obligations.DecodeEncodeAgree : Prop :=
  (∀ i : Instr, i.wf = true → decodeCommand (encode i) = .ok i) ∧
  (∀ (w : Word) (i : Instr), decodeCommand w = .ok i → encode i = w) ∧
  ∀ i j : Instr, encode i = encode j → i = j

/-- Words written out bit by bit from the encoding column decode to their commands (a sanity
statement). -/
def Obligations.WrittenOutWordsDecode : Prop :=
  decodeCommand 0b00000000000000000000000000000101#32 = .ok .rowcode ∧
  decodeCommand 0b00000000000000000000000000000110#32 = .ok .clrerr ∧
  decodeCommand 0b00000000000000000000000100000101#32 = .error .reservedBits ∧
  decodeCommand 0b00000000000000000000000000001000#32 = .error (.reservedOpcode 0x08) ∧
  decodeTableWord 32 0b011 = some .hotp

/-! ### Steps -/

/-- A step with a command pending and the sequencer next runs the decoded command (R26, R85), in the
state itself or in the state less the event from its agenda; a pending illegal word completes as
ILLEGAL_CMD in that step (R84). That the sequencer is next when the agenda is empty is the model's
choice (log 1). -/
def Obligations.StepRunsPendingCommand : Prop :=
  (∀ (s : State) (i : Instr), s.busy = true → i.wf = true → decodeCommand s.pending = .ok i →
    (s.env.agenda = [] → step s = exec i s) ∧
    ∀ rest, s.env.agenda = .sequencer :: rest → step s = exec i (s.setAgenda rest)) ∧
  ∀ (s : State) (r : Illegal), s.busy = true → decodeCommand s.pending = .error r →
    (s.env.agenda = [] →
      step s = .next { s with busy := false, done := true, err := true, errcode := 1 }) ∧
    ∀ rest, s.env.agenda = .sequencer :: rest →
      step s = .next
        { s.setAgenda rest with busy := false, done := true, err := true, errcode := 1 }

/-- A step performs the first event of the agenda (R72, R263): for the sequencer's event, whatever
BUSY and the pending word are. By the model's choice (log 1), with an empty agenda a pending command
is the sequencer's, with none pending the host goes on, and a host that has stopped leaves the block
idle. -/
def Obligations.StepFollowsAgenda : Prop :=
  (∀ (s : State) (a : Access) (rest : List Event), s.env.agenda = .access a :: rest →
    step s = hostAccess (s.setAgenda rest) a) ∧
  (∀ (s : State) (rest : List Event), s.env.agenda = .host :: rest →
    step s = hostStep (s.setAgenda rest)) ∧
  (∀ (s : State) (rest : List Event), s.env.agenda = .hardReset :: rest →
    step s = .next (s.setAgenda rest).hardReset) ∧
  (∀ (s : State) (rest : List Event), s.env.agenda = .sequencer :: rest →
    step s = sequencerStep (s.setAgenda rest)) ∧
  (∀ (s : State) (rest : List Event), s.env.agenda = .sequencer :: rest → s.busy = false →
    step s = .next (s.setAgenda rest)) ∧
  (∀ s : State, s.env.agenda = [] → s.busy = true → step s = sequencerStep s) ∧
  (∀ s : State, s.env.agenda = [] → s.busy = false → step s = hostStep s) ∧
  ∀ s : State, s.env.agenda = [] → s.busy = false → s.env.hostStopped = true → step s = .next s

/-- By the model's choice (log 5), the state that stands for a fetched word is the acceptance of the
word with the sequencer's step next: the next step runs the word's command. -/
def Obligations.FetchedWordRunsNext : Prop :=
  ∀ (s : State) (w : Word) (i : Instr), decodeCommand w = .ok i →
    step (s.withFetchWord 32 w.toNat) = exec i (s.accept w)

/-- With a command pending, the sequencer's step always answers a next state, in which the command
has completed, with a success or with an error; with none pending it has no step. -/
def Obligations.PendingCommandCompletes : Prop :=
  (∀ s : State, s.busy = true → ∃ t, sequencerStep s = .next t ∧
    (Succeeded t ∨ (FailedWith t t.errcode ∧ t.errcode ≠ 0))) ∧
  ∀ s : State, s.busy = false → sequencerStep s = .next s

/-- No step is refused, and only the host's side faults: a bus access the block does not define or
a branch to a label the program lacks (the model's choice, log 8). -/
def Obligations.OnlyTheHostFaults : Prop :=
  (∀ (s : State) (r : Refusal), step s ≠ .refused r) ∧
  ∀ (s : State) (f : Fault), step s = .fault f →
    (nextEvent s).1 = .host ∨ ∃ a, (nextEvent s).1 = .access a

/-! ### Completion and errors -/

/-- R252: a command that completes with success leaves BUSY = 0, DONE = 1, ERR = 0, ERRCODE = 0. -/
def Obligations.SuccessCompletionFields : Prop :=
  ∀ s t : State, s.busy = true → sequencerStep s = .next t → t.err = false →
    t.busy = false ∧ t.done = true ∧ t.errcode = 0

/-- R253: an error completion writes BUSY, DONE, ERR and ERRCODE, clears VALID for HOTP, TOTP and
ROWCODE, sets ABORT for a DecodeError under FAILFAST = 1, and changes nothing else. -/
def Obligations.ErrorCompletionFields : Prop :=
  ∀ s t : State, s.busy = true → sequencerStep s = .next t → t.err = true →
    t.errcode ≠ 0 ∧ t.errcode.toNat ≤ 6 ∧
    t = { s with
      busy := false
      done := true
      err := true
      errcode := t.errcode
      valid := match decodeCommand s.pending with
        | .ok i => if isCodeCommand i then false else s.valid
        | .error _ => s.valid
      abort := if 4 ≤ t.errcode.toNat ∧ s.failfast = true then true else s.abort }

/-- R254: which command raises which code: no command but those of the table, and each of those
does, in some state. -/
def Obligations.ErrorCodesPerCommand : Prop :=
  (∀ s t : State, s.busy = true → sequencerStep s = .next t → t.err = true →
    (t.errcode = 1 ↔ ∃ r, decodeCommand s.pending = .error r) ∧
    ∀ i, decodeCommand s.pending = .ok i →
      (i = .b32dec ∨ i = .hotp ∨ i = .totp ∨ i = .rowcode) ∧
      (t.errcode = 2 ↔ s.abort = true) ∧
      (t.errcode = 3 → ((i = .b32dec ∨ i = .rowcode) ∧ 256 < s.toklen.toNat) ∨
        ((i = .hotp ∨ i = .totp) ∧ 160 < s.keylen.toNat)) ∧
      (4 ≤ t.errcode.toNat → i = .b32dec ∨ i = .rowcode)) ∧
  (∀ (i : Instr) (c : BitVec 4), (isDecodeCommand i || isCodeCommand i) = true →
    c = 2 ∨ c = 3 ∨ (isDecodeCommand i = true ∧ (c = 4 ∨ c = 5 ∨ c = 6)) →
    ∃ s t, exec i s = .next t ∧ FailedWith t c) ∧
  ∀ (s : State) (r : Illegal), s.busy = true → decodeCommand s.pending = .error r →
    ∃ t, sequencerStep s = .next t ∧ FailedWith t 1

/-- R84: an illegal word is accepted like any other and completes as ILLEGAL_CMD with no other
effect; no command but NOP acts as NOP. -/
def Obligations.IllegalWordCompletes : Prop :=
  (∀ (s : State) (w : Word), s.busy = false → (w.toNat / 256 ≠ 0 ∨ 8 ≤ w.toNat % 256) →
    ∃ t, hostAccess s (.write .four 0x008 w) = .next t ∧ t.lastop.toNat = w.toNat % 256 ∧
      t = { s with pending := w, busy := true, done := false, lastop := t.lastop } ∧
      sequencerStep t = .next
        { t with busy := false, done := true, err := true, errcode := 1 }) ∧
  ∀ i : Instr, i ≠ .nop → ∃ s : State, exec i s ≠ exec .nop s

/-- R255: when several errors apply the first of ILLEGAL_CMD, ABORTED, LENGTH_RANGE, B32_BADCHAR,
B32_BADLEN, B32_BADTAIL is reported. -/
def Obligations.ErrorPriority : Prop :=
  (∀ (s : State) (r : Illegal), s.busy = true → decodeCommand s.pending = .error r →
    ∃ t, sequencerStep s = .next t ∧ FailedWith t 1) ∧
  (∀ (s : State) (i : Instr), (isDecodeCommand i || isCodeCommand i) = true → s.abort = true →
    ∃ t, exec i s = .next t ∧ FailedWith t 2) ∧
  (∀ (s : State) (i : Instr), s.abort = false →
    ((isDecodeCommand i = true ∧ 256 < s.toklen.toNat) ∨
      ((i = .hotp ∨ i = .totp) ∧ 160 < s.keylen.toNat)) →
    ∃ t, exec i s = .next t ∧ FailedWith t 3) ∧
  (∀ (s : State) (i : Instr), isDecodeCommand i = true → s.abort = false → s.toklen.toNat ≤ 256 →
    (∃ b ∈ clean (tokenOperand s), base32Val b = none) →
    ∃ t, exec i s = .next t ∧ FailedWith t 4) ∧
  (∀ (s : State) (i : Instr), isDecodeCommand i = true → s.abort = false → s.toklen.toNat ≤ 256 →
    (∀ b ∈ clean (tokenOperand s), base32Val b ≠ none) →
    5 ≤ 5 * (clean (tokenOperand s)).length % 8 →
    ∃ t, exec i s = .next t ∧ FailedWith t 5) ∧
  ∀ (s : State) (i : Instr) (vs : List (BitVec 5)), isDecodeCommand i = true → s.abort = false →
    s.toklen.toNat ≤ 256 → base32Vals (clean (tokenOperand s)) = some vs →
    5 * (clean (tokenOperand s)).length % 8 < 5 → s.strict = true →
    true ∈ tailBits (valueBits vs) → ∃ t, exec i s = .next t ∧ FailedWith t 6

/-- R256: only the sequencer's step of a B32DEC or ROWCODE that ends with a DecodeError under
FAILFAST = 1 sets ABORT, and it does. -/
def Obligations.AbortSetByDecodeErrors : Prop :=
  (∀ s t : State, step s = .next t → s.abort = false → t.abort = true →
    (nextEvent s).1 = .sequencer ∧ s.busy = true ∧ s.failfast = true ∧ t.err = true ∧
    4 ≤ t.errcode.toNat ∧ ∃ i, decodeCommand s.pending = .ok i ∧ isDecodeCommand i = true) ∧
  ∀ (s t : State) (i : Instr), isDecodeCommand i = true → exec i s = .next t →
    4 ≤ t.errcode.toNat → s.failfast = true → t.abort = true

/-- R257: while ABORT = 1 the four secret-dependent commands complete as ABORTED whatever FAILFAST
holds, the other four run normally, and no command makes a code or sets VALID as long as the latch
stays set. That an ABORTED B32DEC leaves VALID as it was, and that "VALID stays 0" is read as "no
command sets VALID", is the model's reading (log 15), from R29, R52 and R253. -/
def Obligations.AbortGatesSecretCommands : Prop :=
  (∀ (s : State) (i : Instr), s.abort = true → (isDecodeCommand i || isCodeCommand i) = true →
    exec i s = .next { s with
      busy := false
      done := true
      err := true
      errcode := 2
      valid := if isCodeCommand i then false else s.valid }) ∧
  (∀ (s : State) (i : Instr), s.abort = true → (isDecodeCommand i || isCodeCommand i) = false →
    ∃ t, exec i s = .next t ∧ Succeeded t) ∧
  ∀ s t : State, s.abort = true → step s = .next t → t.abort = true →
    t.code = s.code ∧ t.digits = s.digits ∧ t.digest = s.digest ∧ t.snum = s.snum ∧
    t.offset = s.offset ∧ (s.valid = false → t.valid = false)

/-- R258: only CLRERR, SRST and the hardware reset clear ABORT, and they do; a write of CONFIG does
not. -/
def Obligations.AbortClearedBy : Prop :=
  (∀ s t : State, step s = .next t → s.abort = true → t.abort = false →
    (nextEvent s).1 = .hardReset ∨ ((nextEvent s).1 = .sequencer ∧ s.busy = true ∧
      (decodeCommand s.pending = .ok .clrerr ∨ decodeCommand s.pending = .ok .srst))) ∧
  (∀ s : State, (∃ t, exec .clrerr s = .next t ∧ t.abort = false) ∧
    (∃ t, exec .srst s = .next t ∧ t.abort = false) ∧
    ∃ t, perform .hardReset s = .next t ∧ t.abort = false) ∧
  ∀ (s : State) (v : Word), ∃ t, hostAccess s (.write .four 0x004 v) = .next t ∧
    t.abort = s.abort

/-- R31: OVR is set by every host write dropped while BUSY = 1 (a bus access, or the host program's
`wr` or `cmd`, at a writable offset) and by nothing else, is cleared by CLRERR, SRST and reset and by
nothing else, and affects no command. -/
def Obligations.OverrunFlag : Prop :=
  (∀ (s : State) (off : Nat) (v : Word), s.busy = true → off % 4 = 0 → IsWritableOffset off →
    hostAccess s (.write .four off v) = .next { s with ovr := true }) ∧
  (∀ (s : State) (off : Nat), s.busy = true → off % 4 = 0 → IsWritableOffset off →
    NextIsWrite s off → ∃ t, step s = .next t ∧ SameBlock { s with ovr := true } t) ∧
  (∀ s t : State, step s = .next t → s.ovr = false → t.ovr = true →
    s.busy = true ∧ SameBlock { s with ovr := true } t ∧
    ∃ off, off % 4 = 0 ∧ IsWritableOffset off ∧ NextIsWrite s off) ∧
  (∀ s t : State, step s = .next t → s.ovr = true → t.ovr = false →
    (nextEvent s).1 = .hardReset ∨ ((nextEvent s).1 = .sequencer ∧ s.busy = true ∧
      (decodeCommand s.pending = .ok .clrerr ∨ decodeCommand s.pending = .ok .srst))) ∧
  (∀ s : State, (∃ t, exec .clrerr s = .next t ∧ t.ovr = false) ∧
    (∃ t, exec .srst s = .next t ∧ t.ovr = false) ∧
    ∃ t, perform .hardReset s = .next t ∧ t.ovr = false) ∧
  ∀ (s t : State) (i : Instr) (b : Bool), exec i s = .next t →
    ∃ u, exec i { s with ovr := b } = .next u ∧ { u with ovr := t.ovr } = t

/-- R52: what each command may write, at success and at error completion; acceptance and completion
fields apart, every other field is unchanged. -/
def Obligations.CommandWriteSets : Prop :=
  (∀ s t : State, exec .srst s = .next t → t.err = false ∧
    t.withEnv Env.reset = { State.reset with done := t.done, lastop := t.lastop }) ∧
  (∀ (s t : State) (r : Illegal), s.busy = true → decodeCommand s.pending = .error r →
    sequencerStep s = .next t →
    t = { s with busy := false, done := t.done, err := t.err, errcode := t.errcode }) ∧
  ∀ (s t : State) (i : Instr), exec i s = .next t → i ≠ .srst →
    (t.failfast = s.failfast ∧ t.strict = s.strict ∧ t.lastop = s.lastop ∧
      t.pending = s.pending ∧ t.time = s.time ∧ t.toklen = s.toklen ∧ t.token = s.token ∧
      t.env = s.env) ∧
    ((t.ctr = s.ctr ∧ t.secrem = s.secrem) ∨ (t.err = false ∧ (i = .tstep ∨ i = .totp))) ∧
    ((t.key = s.key ∧ t.keylen = s.keylen) ∨ (t.err = false ∧ isDecodeCommand i = true)) ∧
    ((t.digest = s.digest ∧ t.offset = s.offset ∧ t.snum = s.snum ∧ t.code = s.code ∧
      t.digits = s.digits) ∨ (t.err = false ∧ isCodeCommand i = true)) ∧
    (t.valid = if isCodeCommand i then !t.err else s.valid) ∧
    (t.ovr = if i = .clrerr then false else s.ovr) ∧
    (t.abort = s.abort ∨ (i = .clrerr ∧ t.abort = false) ∨
      (isDecodeCommand i = true ∧ t.err = true ∧ 4 ≤ t.errcode.toNat ∧ s.failfast = true ∧
        t.abort = true))

/-! ### Reset and the control commands -/

/-- R281: the reset value of every field, what every register reads right after reset, and the
hardwired registers at all times. -/
def Obligations.ResetValues : Prop :=
  (State.reset.failfast = true ∧ State.reset.strict = false ∧ State.reset.busy = false ∧
    State.reset.done = false ∧ State.reset.err = false ∧ State.reset.valid = false ∧
    State.reset.abort = false ∧ State.reset.ovr = false ∧ State.reset.errcode = 0 ∧
    State.reset.lastop = 0 ∧ State.reset.pending = 0 ∧ State.reset.time = 0 ∧
    State.reset.ctr = 0 ∧ State.reset.secrem = 0 ∧ State.reset.toklen = 0 ∧
    State.reset.keylen = 0 ∧ State.reset.code = 0 ∧ State.reset.offset = 0 ∧
    State.reset.snum = 0) ∧
  State.reset.digits = Vector.replicate 6 0 ∧ State.reset.digest = Vector.replicate 20 0 ∧
  (∀ i, State.reset.token.readByte i = 0 ∧ State.reset.key.readByte i = 0) ∧
  readReg State.reset (regAt 0x004) = 0x00000001 ∧
  (∀ off : Nat, off % 4 = 0 → off ≠ 0x000 → off ≠ 0x004 → off ≠ 0x058 → off ≠ 0x05C →
    readReg State.reset (regAt off) = 0) ∧
  ∀ s : State, readReg s (regAt 0x000) = 0x544F5450 ∧ readReg s (regAt 0x058) = 0x00A00100 ∧
    readReg s (regAt 0x05C) = 0x0000061E

/-- The hardware reset (R280, R282) puts every field of the block to its reset value in one step, at
any time; a pending command is discarded. That it leaves the surroundings is the model's choice
(log 10). -/
def Obligations.HardResetRestoresBlock : Prop :=
  ∀ s : State, ∃ t, perform .hardReset s = .next t ∧ t.env = s.env ∧
    t.withEnv Env.reset = State.reset

/-- R230: NOP does nothing and completes; its word with a reserved bit set is illegal, and its
write while BUSY = 1 is dropped. -/
def Obligations.NopOnlyCompletes : Prop :=
  (∀ s : State, exec .nop s =
    .next { s with busy := false, done := true, err := false, errcode := 0 }) ∧
  (∀ w : Word, opcField w = 0 → w ≠ 0 → ∃ r, decodeCommand w = .error r) ∧
  (∀ s : State, s.busy = true →
    hostAccess s (.write .four 0x008 0) = .next { s with ovr := true }) ∧
  ∃ t, sequencerStep (State.reset.accept 0x00000000) = .next t ∧ statusWord t = 0x00000002

/-- R231: CLRERR clears ABORT and OVR and completes, with the latch set or not; VALID and every
input are unchanged. The last clause is the rule's example. -/
def Obligations.ClrerrClearsLatches : Prop :=
  (∀ s : State, exec .clrerr s = .next { s with
    abort := false, ovr := false, busy := false, done := true, err := false, errcode := 0 }) ∧
  (∀ s : State, s.abort = false → s.ovr = false → exec .clrerr s = exec .nop s) ∧
  ∀ s t : State, s.busy = true → s.pending = 0x00000005 → s.lastop = 0x05 → s.ovr = false →
    s.failfast = true → sequencerStep s = .next t → t.errcode = 4 →
    statusWord t = 0x00050416 ∧
    ∃ u, sequencerStep (t.accept 0x00000006) = .next u ∧ statusWord u = 0x00060002

/-- R232: SRST returns every field to its reset value but DONE = 1 and LASTOP = 0x07, whatever the
latch holds; it cannot interrupt a pending command. -/
def Obligations.SrstResetsState : Prop :=
  (∀ s : State, ∃ t, exec .srst s = .next t ∧
    t.withEnv Env.reset = { State.reset with done := true, lastop := 0x07 } ∧
    statusWord t = 0x00070002 ∧ readReg t .config = 0x00000001 ∧
    ∀ i, t.token.readByte i = 0 ∧ t.key.readByte i = 0) ∧
  ∀ s : State, s.busy = true →
    hostAccess s (.write .four 0x008 0x00000007) = .next { s with ovr := true }

/-! ### Time and counter -/

/-- R133: TSTEP writes `floor(TIME / 30)` to COUNTER and `30 - TIME mod 30` to SECREM, always
succeeds, and changes nothing else but the completion fields. -/
def Obligations.TstepDerivesCounter : Prop :=
  (∀ s : State, ∃ t, exec .tstep s = .next t ∧ t.ctr.toNat = s.time.toNat / 30 ∧
    t.secrem.toNat = 30 - s.time.toNat % 30 ∧
    t = { s with
      ctr := t.ctr, secrem := t.secrem, busy := false, done := true, err := false,
      errcode := 0 }) ∧
  ∀ s : State, s.time = 59 → ∃ t, exec .tstep s = .next t ∧ t.ctr = 1 ∧ t.secrem = 1

/-- R134: the corner cases of the time step, at every step boundary and at the largest time; TSTEP
overwrites any COUNTER. -/
def Obligations.TimestepCornerCases : Prop :=
  timestep 0 = (0, 30) ∧ timestep 29 = (0, 1) ∧ timestep 30 = (1, 30) ∧
  (∀ k : Nat, 30 * k < 2 ^ 64 →
    timestep (BitVec.ofNat 64 (30 * k)) = (BitVec.ofNat 64 k, 30)) ∧
  (∀ k : Nat, 30 * k + 29 < 2 ^ 64 →
    timestep (BitVec.ofNat 64 (30 * k + 29)) = (BitVec.ofNat 64 k, 1)) ∧
  timestep (BitVec.ofNat 64 (2 ^ 64 - 1)) = (0x0888888888888888, 15) ∧
  ∀ (s : State) (c : DWord), exec .tstep { s with ctr := c } = exec .tstep s

/-- R131: the big-endian reading of the encoded counter is the counter, for every 64-bit value, so
the encoder is injective. -/
def Obligations.CounterEncodeRoundTrip : Prop :=
  (∀ n : DWord, fromBe (counterEncode n).toList = n.toNat) ∧
  (∀ m n : DWord, counterEncode m = counterEncode n → m = n) ∧
  (counterEncode 1).toList = [0, 0, 0, 0, 0, 0, 0, 1] ∧
  (counterEncode 0x0123456789ABCDEF).toList = [0x01, 0x23, 0x45, 0x67, 0x89, 0xAB, 0xCD, 0xEF]

/-! ### Base32 -/

/-- R101: cleaning removes exactly the bytes 0x20 and upper-cases exactly the ASCII letters, in the
order of the token, and the two commute; tab, line feed, carriage return and the bytes from 0x80 are
kept and have no value. -/
def Obligations.CleaningCommutes : Prop :=
  (∀ tok : Bytes, clean tok = (tok.map upperByte).filter fun b => b ≠ 0x20) ∧
  (∀ tok : Bytes, clean tok = (tok.filter fun b => b ≠ 0x20).map upperByte) ∧
  (∀ b : Byte, 0x61 ≤ b.toNat → b.toNat ≤ 0x7A → (upperByte b).toNat = b.toNat - 0x20) ∧
  (∀ b : Byte, ¬(0x61 ≤ b.toNat ∧ b.toNat ≤ 0x7A) → upperByte b = b) ∧
  (∀ b : Byte, b = 0x09 ∨ b = 0x0A ∨ b = 0x0D ∨ 0x80 ≤ b.toNat →
    clean [b] = [b] ∧ base32Val b = none)

/-- R102, R103: the value of every byte, that of A to Z and of 2 to 7 and none of any other; no
lower-case letter is left after cleaning; the decoder answers B32_BADCHAR exactly when some cleaned
byte has no value; `=` and the digits 0, 1, 8 and 9 have none. -/
def Obligations.BadCharacterExactly : Prop :=
  (∀ (tok : Bytes) (strict : Bool), b32decode tok strict = .error .badChar ↔
    ∃ b ∈ clean tok, base32Val b = none) ∧
  (∀ c : Byte, 0x41 ≤ c.toNat → c.toNat ≤ 0x5A →
    ∃ v, base32Val c = some v ∧ v.toNat = c.toNat - 0x41) ∧
  (∀ c : Byte, 0x32 ≤ c.toNat → c.toNat ≤ 0x37 →
    ∃ v, base32Val c = some v ∧ v.toNat = c.toNat - 0x32 + 26) ∧
  (∀ c : Byte, ¬(0x41 ≤ c.toNat ∧ c.toNat ≤ 0x5A) → ¬(0x32 ≤ c.toNat ∧ c.toNat ≤ 0x37) →
    base32Val c = none) ∧
  (∀ (tok : Bytes), ∀ b ∈ clean tok, ¬(0x61 ≤ b.toNat ∧ b.toNat ≤ 0x7A)) ∧
  base32Val 0x3D = none ∧ base32Val 0x30 = none ∧ base32Val 0x31 = none ∧
  base32Val 0x38 = none ∧ base32Val 0x39 = none

/-- R104: over alphabet characters the decoder answers B32_BADLEN exactly when `(5 n) mod 8 >= 5`,
that is when `n mod 8` is 1, 3 or 6; every other length is that of `floor(5 n / 8)` bytes. -/
def Obligations.BadLengthExactly : Prop :=
  ∀ (tok : Bytes), (∀ b ∈ clean tok, base32Val b ≠ none) →
    (∀ strict, b32decode tok strict = .error .badLen ↔ 5 ≤ 5 * (clean tok).length % 8) ∧
    (5 ≤ 5 * (clean tok).length % 8 ↔
      (clean tok).length % 8 = 1 ∨ (clean tok).length % 8 = 3 ∨ (clean tok).length % 8 = 6) ∧
    (5 * (clean tok).length % 8 < 5 →
      ∃ r, b32decode tok false = .ok r ∧ r.length = 5 * (clean tok).length / 8)

/-- R105: bit `j` (from the most significant) of output byte `i` is bit `8 i + j` of the
characters' five-bit values, first character first; the tail is the `t` bits left over. -/
def Obligations.PackingMsbFirst : Prop :=
  ∀ vs : List (BitVec 5),
    (wholeBytes (valueBits vs)).length = 5 * vs.length / 8 ∧
    (∀ i j, i < 5 * vs.length / 8 → j < 8 →
      ((wholeBytes (valueBits vs)).getD i 0).getMsbD j =
        (vs.getD ((8 * i + j) / 5) 0).getMsbD ((8 * i + j) % 5)) ∧
    (tailBits (valueBits vs)).length = 5 * vs.length - 8 * (5 * vs.length / 8) ∧
    (vs.length % 8 = 0 → (tailBits (valueBits vs)).length = 0) ∧
    (vs.length % 8 = 2 → (tailBits (valueBits vs)).length = 2) ∧
    (vs.length % 8 = 4 → (tailBits (valueBits vs)).length = 4) ∧
    (vs.length % 8 = 5 → (tailBits (valueBits vs)).length = 1) ∧
    (vs.length % 8 = 7 → (tailBits (valueBits vs)).length = 3) ∧
    ∀ k, 8 * (5 * vs.length / 8) + k < 5 * vs.length →
      (tailBits (valueBits vs)).getD k false =
        (vs.getD ((8 * (5 * vs.length / 8) + k) / 5) 0).getMsbD
          ((8 * (5 * vs.length / 8) + k) % 5)

/-- R106: with STRICT = 1 a set tail bit is B32_BADTAIL; with STRICT = 0 the tail is discarded
whatever it holds, so that "MY" and "MZ" both give "f". -/
def Obligations.TrailingBitsPolicy : Prop :=
  (∀ (tok : Bytes) (vs : List (BitVec 5)), base32Vals (clean tok) = some vs →
    5 * vs.length % 8 < 5 →
    (true ∈ tailBits (valueBits vs) → b32decode tok true = .error .badTail) ∧
    (true ∉ tailBits (valueBits vs) → b32decode tok true = b32decode tok false) ∧
    b32decode tok false = .ok (wholeBytes (valueBits vs))) ∧
  b32decode [0x4D, 0x59] false = .ok [0x66] ∧ b32decode [0x4D, 0x5A] false = .ok [0x66] ∧
  b32decode [0x4D, 0x59] true = .ok [0x66] ∧ b32decode [0x4D, 0x5A] true = .error .badTail ∧
  State.reset.strict = false

/-- R110: decoding the unpadded base32 encoding of any key gives the key back, in both modes, and
so does every token that cleans to that encoding (spaces inserted, letters lower-cased). -/
def Obligations.Base32RoundTrip : Prop :=
  ∀ (b : Bytes) (strict : Bool), b.length ≤ 160 →
    b32decode (b32encode b) strict = .ok b ∧
    ∀ tok : Bytes, clean tok = b32encode b → b32decode tok strict = .ok b

/-- B32DEC on a decodable token writes the decoded bytes and then zeros to all 160 bytes of KEY and
their number to KEYLEN, and changes nothing else but the completion fields. -/
def Obligations.B32decStoresKey : Prop :=
  ∀ (s : State) (r : Bytes), s.key.wf = true → s.abort = false → s.toklen.toNat ≤ 256 →
    b32decode (tokenOperand s) s.strict = .ok r →
    ∃ t, exec .b32dec s = .next t ∧ t.keylen.toNat = r.length ∧ r.length ≤ 160 ∧
      (∀ i, i < 160 → t.key.readByte i = r.getD i 0) ∧
      (∀ i, 160 ≤ i → t.key.readByte i = s.key.readByte i) ∧
      t = { s with
        key := t.key, keylen := t.keylen, busy := false, done := true, err := false,
        errcode := 0 }

/-- The token bytes B32DEC and ROWCODE read are the first TOKLEN bytes of TOKEN, and the bytes
beyond TOKLEN influence nothing. -/
def Obligations.TokenBeyondLengthUnread : Prop :=
  (∀ s : State, (tokenOperand s).length = s.toklen.toNat ∧
    ∀ i, i < s.toklen.toNat → (tokenOperand s).getD i 0 = s.token.readByte i) ∧
  ∀ (s t : State) (m : Memory) (i : Instr), isDecodeCommand i = true →
    (∀ k, k < s.toklen.toNat → m.readByte k = s.token.readByte k) → exec i s = .next t →
    exec i { s with token := m } = .next { t with token := m }

/-! ### HMAC-SHA1 -/

/-- R161: the padded message is the message, 0x80, the least number of zeros that fills a block, and
the length in bits as eight big-endian bytes; the block counts of the lengths the block uses. -/
def Obligations.Sha1PaddingLeast : Prop :=
  (∀ m : Bytes, 8 * m.length < 2 ^ 64 → ∃ z,
    ((m.length + 1 + z + 8) % 64 = 0 ∧ ∀ y, y < z → (m.length + 1 + y + 8) % 64 ≠ 0) ∧
    ∃ l : Bytes, l.length = 8 ∧ fromBe l = 8 * m.length ∧
      sha1Pad m = m ++ [0x80] ++ List.replicate z 0 ++ l) ∧
  ∀ m : Bytes, ((m.length = 72 ∨ m.length = 84 ∨ (65 ≤ m.length ∧ m.length ≤ 119)) →
      (sha1Pad m).length = 2 * 64) ∧
    (120 ≤ m.length → m.length ≤ 160 → (sha1Pad m).length = 3 * 64)

/-- R162: the message schedule of a block of 16 words is the block followed by the recurrence
`W_t = ROTL_1(W_(t-3) ^ W_(t-8) ^ W_(t-14) ^ W_(t-16))`, 80 words in all, and a block's words are
the big-endian words of its bytes. -/
def Obligations.Sha1ScheduleRecurrence : Prop :=
  (∀ b : List Word, b.length = 16 →
    (sha1Schedule b).length = 80 ∧
    (∀ t, t < 16 → (sha1Schedule b).getD t 0 = b.getD t 0) ∧
    ∀ t, 16 ≤ t → t < 80 → (sha1Schedule b).getD t 0 =
      ((sha1Schedule b).getD (t - 3) 0 ^^^ (sha1Schedule b).getD (t - 8) 0 ^^^
        (sha1Schedule b).getD (t - 14) 0 ^^^ (sha1Schedule b).getD (t - 16) 0).rotateLeft 1) ∧
  (∀ (n : Nat) (x : Word), n < 32 → rotl n x = x.rotateLeft n) ∧
  (∀ x y : Word, (x + y).toNat = (x.toNat + y.toNat) % 2 ^ 32) ∧
  ∀ (m : Bytes) (t : Nat), 4 * t + 4 ≤ m.length →
    ((beWords m).getD t 0).toNat = fromBe ((m.drop (4 * t)).take 4)

/-- R163, R164, R165: the chaining words go from their initial value through the blocks of the padded
message in order; the compression of a block is eighty rounds from the chaining words and an
addition of the result to them; each round is the rule's, with its functions and constants. -/
def Obligations.Sha1CompressionRounds : Prop :=
  (∀ (t : Nat) (b c d : Word),
    (t < 20 → sha1F t b c d = (b &&& c) ||| (~~~b &&& d) ∧ sha1K t = 0x5A827999) ∧
    (20 ≤ t → t < 40 → sha1F t b c d = b ^^^ c ^^^ d ∧ sha1K t = 0x6ED9EBA1) ∧
    (40 ≤ t → t < 60 →
      sha1F t b c d = (b &&& c) ||| (b &&& d) ||| (c &&& d) ∧ sha1K t = 0x8F1BBCDC) ∧
    (60 ≤ t → t < 80 → sha1F t b c d = b ^^^ c ^^^ d ∧ sha1K t = 0xCA62C1D6)) ∧
  (∀ m : Bytes, ∃ H : Nat → Sha1Words,
    H 0 = ⟨0x67452301, 0xEFCDAB89, 0x98BADCFE, 0x10325476, 0xC3D2E1F0⟩ ∧
    (∀ i, i < (sha1Pad m).length / 64 →
      H (i + 1) = sha1Compress (H i) (beWords (((sha1Pad m).drop (64 * i)).take 64))) ∧
    sha1Words m = H ((sha1Pad m).length / 64)) ∧
  ∀ (h : Sha1Words) (block : List Word), block.length = 16 →
    ∃ v : Nat → Sha1Words, v 0 = h ∧
      (∀ t, t < 80 → v (t + 1) =
        ⟨(v t).a.rotateLeft 5 + sha1F t (v t).b (v t).c (v t).d + (v t).e + sha1K t +
            (sha1Schedule block).getD t 0,
          (v t).a, (v t).b.rotateLeft 30, (v t).c, (v t).d⟩) ∧
      sha1Compress h block =
        ⟨h.a + (v 80).a, h.b + (v 80).b, h.c + (v 80).c, h.d + (v 80).d, h.e + (v 80).e⟩

/-- R166: SHA-1 answers the five chaining words big-endian, and its check values and the first two
HMAC digests of RFC 4226 Appendix D come out. -/
def Obligations.Sha1CheckValues : Prop :=
  (∀ m : Bytes, (sha1 m).toList = wordBytes (sha1Words m).a ++ wordBytes (sha1Words m).b ++
    wordBytes (sha1Words m).c ++ wordBytes (sha1Words m).d ++ wordBytes (sha1Words m).e) ∧
  fromBe (sha1 [0x61, 0x62, 0x63]).toList = 0xa9993e364706816aba3e25717850c26c9cd0d89d ∧
  fromBe (sha1 []).toList = 0xda39a3ee5e6b4b0d3255bfef95601890afd80709 ∧
  fromBe (hmacRef [0x31, 0x32, 0x33, 0x34, 0x35, 0x36, 0x37, 0x38, 0x39, 0x30, 0x31, 0x32, 0x33,
    0x34, 0x35, 0x36, 0x37, 0x38, 0x39, 0x30] (counterEncode 0)).toList =
      0xcc93cf18508d94934c64b65d8ba7667fb7cde4b0 ∧
  fromBe (hmacRef [0x31, 0x32, 0x33, 0x34, 0x35, 0x36, 0x37, 0x38, 0x39, 0x30, 0x31, 0x32, 0x33,
    0x34, 0x35, 0x36, 0x37, 0x38, 0x39, 0x30] (counterEncode 1)).toList =
      0x75a48a19d4cbe100644e8ac1397eea747a2d33ab

/-- R160: the block key is 64 bytes, the key itself up to 64 bytes long and its hash beyond, zeros
after; the HMAC is the two nested hashes. -/
def Obligations.HmacBlockKey : Prop :=
  (∀ key : Bytes, (hmacBlockKey key).length = 64) ∧
  (∀ key : Bytes, key.length ≤ 64 → ∀ i, (hmacBlockKey key).getD i 0 = key.getD i 0) ∧
  (∀ key : Bytes, 64 < key.length → ∀ i,
    (hmacBlockKey key).getD i 0 = (sha1 key).toList.getD i 0) ∧
  ∀ (key : Bytes) (msg : Vector Byte 8), hmacRef key msg =
    sha1 ((hmacBlockKey key).map (fun b => b ^^^ 0x5C) ++
      (sha1 ((hmacBlockKey key).map (fun b => b ^^^ 0x36) ++ msg.toList)).toList)

/-! ### Truncation and codes -/

/-- R190, R191, R192: the offset is the low nibble of the last digest byte; the number is the
big-endian window with its top bit cleared; the code is the number modulo 10^6. -/
def Obligations.TruncationArithmetic : Prop :=
  ∀ h : Vector Byte 20,
    (truncOffset h).toNat = (h.toList.getD 19 0).toNat % 16 ∧
    (truncNumber h).toNat = windowNumber h (truncOffset h).toNat ∧
    (truncNumber h).toNat < 2 ^ 31 ∧ (truncOffset h).toNat + 3 < 19 ∧
    (truncCode h).toNat = (truncNumber h).toNat % 1000000 ∧ (truncCode h).toNat ≤ 999999

/-- R193: the formatter renders a code as six ASCII digits, most significant first, leading zeros
kept, and the numeral they form is the code. -/
def Obligations.FormatterRendersNumeral : Prop :=
  (∀ c : BitVec 20, c.toNat ≤ 999999 →
    (∀ i, i < 6 → ((format6 c).toList.getD i 0).toNat = 0x30 + c.toNat / 10 ^ (5 - i) % 10) ∧
    (∀ b ∈ (format6 c).toList, IsAsciiDigit b) ∧
    decimalValue (format6 c).toList = c.toNat) ∧
  (format6 42).toList = [0x30, 0x30, 0x30, 0x30, 0x34, 0x32]

/-- HOTP with the latch clear and KEYLEN in range succeeds: the result registers are those of the
digest of the first KEYLEN bytes of KEY at COUNTER, and nothing else changes but the completion
fields. The processor is the reference one of R160, which is the model's instance (R152, log 3). -/
def Obligations.HotpComputesCode : Prop :=
  (∀ s : State, (keyOperand s).length = s.keylen.toNat ∧
    ∀ i, i < s.keylen.toNat → (keyOperand s).getD i 0 = s.key.readByte i) ∧
  ∀ s : State, s.abort = false → s.keylen.toNat ≤ 160 →
    ∃ t, exec .hotp s = .next t ∧
      ResultsOf (hmacRef (keyOperand s) (counterEncode s.ctr)) t ∧
      t = { s with
        digest := t.digest, offset := t.offset, snum := t.snum, code := t.code,
        digits := t.digits, valid := true, busy := false, done := true, err := false,
        errcode := 0 }

/-- TOTP with the latch clear and KEYLEN in range succeeds: COUNTER and SECREM are those of TIME,
the result registers those of the key at that counter, and nothing else changes but the completion
fields. The processor is the reference one of R160, which is the model's instance (R152, log 3). -/
def Obligations.TotpComputesCode : Prop :=
  ∀ s : State, s.abort = false → s.keylen.toNat ≤ 160 →
    ∃ t, exec .totp s = .next t ∧ t.ctr.toNat = s.time.toNat / 30 ∧
      t.secrem.toNat = 30 - s.time.toNat % 30 ∧
      ResultsOf (hmacRef (keyOperand s) (counterEncode t.ctr)) t ∧
      t = { s with
        ctr := t.ctr, secrem := t.secrem, digest := t.digest, offset := t.offset,
        snum := t.snum, code := t.code, digits := t.digits, valid := true, busy := false,
        done := true, err := false, errcode := 0 }

/-- ROWCODE on a decodable token with the latch clear succeeds: KEY and KEYLEN hold the decoded key,
the result registers its code at COUNTER, and nothing else changes but the completion fields. The
processor is the reference one of R160, which is the model's instance (R152, log 3). -/
def Obligations.RowcodeComputesCode : Prop :=
  ∀ (s : State) (r : Bytes), s.key.wf = true → s.abort = false → s.toklen.toNat ≤ 256 →
    b32decode (tokenOperand s) s.strict = .ok r →
    ∃ t, exec .rowcode s = .next t ∧ t.keylen.toNat = r.length ∧
      (∀ i, i < 160 → t.key.readByte i = r.getD i 0) ∧
      (∀ i, 160 ≤ i → t.key.readByte i = s.key.readByte i) ∧
      ResultsOf (hmacRef r (counterEncode s.ctr)) t ∧
      t = { s with
        key := t.key, keylen := t.keylen, digest := t.digest, offset := t.offset,
        snum := t.snum, code := t.code, digits := t.digits, valid := true, busy := false,
        done := true, err := false, errcode := 0 }

/-- The code commands on ANY HMAC-SHA1 processor (R152): each answers the results of that
processor's digest, and a command that fails calls no processor (R154): its result is the same
whatever the processor is. exec is these at the reference processor of R160 (log 3). -/
def Obligations.CodeCommandsOnEveryProcessor : Prop :=
  (∀ (H : HmacProcessor) (s : State), s.abort = false → s.keylen.toNat ≤ 160 →
    (∃ t, hotpOn H s = .next t ∧ Succeeded t ∧
      ResultsOf (H (keyOperand s) (counterEncode s.ctr)) t) ∧
    ∃ t, totpOn H s = .next t ∧ Succeeded t ∧
      ResultsOf (H (keyOperand s) (counterEncode t.ctr)) t) ∧
  (∀ (H : HmacProcessor) (s : State) (r : Bytes), s.abort = false → s.toklen.toNat ≤ 256 →
    b32decode (tokenOperand s) s.strict = .ok r →
    ∃ t, rowcodeOn H s = .next t ∧ Succeeded t ∧ ResultsOf (H r (counterEncode s.ctr)) t) ∧
  (∀ s : State, exec .hotp s = hotpOn hmacRef s ∧ exec .totp s = totpOn hmacRef s ∧
    exec .rowcode s = rowcodeOn hmacRef s) ∧
  ∀ (H K : HmacProcessor) (s t : State), t.err = true →
    (hotpOn H s = .next t → hotpOn K s = .next t) ∧
    (totpOn H s = .next t → totpOn K s = .next t) ∧
    (rowcodeOn H s = .next t → rowcodeOn K s = .next t)

/-- TOTP is TSTEP and then HOTP when the latch is clear and KEYLEN is in range (R199 d). -/
def Obligations.TotpIsTstepThenHotp : Prop :=
  ∀ s : State, s.abort = false → s.keylen.toNat ≤ 160 →
    ∃ u, exec .tstep s = .next u ∧ exec .totp s = exec .hotp u

/-- ROWCODE is B32DEC and then HOTP when the token decodes: the fused command leaves exactly the
state its two parts leave (spec/95_test_vectors.md section 2.8). -/
def Obligations.RowcodeIsB32decThenHotp : Prop :=
  ∀ (s t : State), s.key.wf = true → exec .rowcode s = .next t → t.err = false →
    ∃ u, exec .b32dec s = .next u ∧ u.err = false ∧ exec .hotp u = .next t

/-- HOTP's results depend on the key bytes below KEYLEN and on COUNTER alone: two states that agree
on those, on KEYLEN and on the latch get the same results, whatever else they hold. -/
def Obligations.CodeDependsOnKeyAndCounter : Prop :=
  ∀ s s' t t' : State, s.abort = s'.abort → s.keylen = s'.keylen → s.ctr = s'.ctr →
    (∀ i, i < s.keylen.toNat → s.key.readByte i = s'.key.readByte i) →
    exec .hotp s = .next t → exec .hotp s' = .next t' →
    t.err = t'.err ∧ t.errcode = t'.errcode ∧
    (t.err = false → t.digest = t'.digest ∧ t.offset = t'.offset ∧ t.snum = t'.snum ∧
      t.code = t'.code ∧ t.digits = t'.digits)

/-! ### The register window -/

/-- The layout of STATUS (R25): each flag at its bit, ERRCODE in 11:8, LASTOP in 23:16, every
reserved bit 0. -/
def Obligations.StatusLayout : Prop :=
  ∀ s : State, (statusWord s).toNat =
    s.busy.toNat + 2 * s.done.toNat + 4 * s.err.toNat + 8 * s.valid.toNat +
      16 * s.abort.toNat + 32 * s.ovr.toNat + 256 * s.errcode.toNat + 65536 * s.lastop.toNat

/-- R68: what an aligned 32-bit write does at every offset of the window. -/
def Obligations.AlignedWriteRule : Prop :=
  ∀ (s : State) (off : Nat) (v : Word), off < 4096 → off % 4 = 0 →
    (IsReservedOffset off ∨ IsReadOnlyOffset off →
      hostAccess s (.write .four off v) = .next s) ∧
    (IsWritableOffset off → s.busy = true →
      hostAccess s (.write .four off v) = .next { s with ovr := true }) ∧
    (IsWritableOffset off → s.busy = false →
      ∃ t, hostAccess s (.write .four off v) = .next t ∧
        (off = 0x008 → t = { s with
          pending := v, busy := true, done := false, lastop := v.extractLsb' 0 8 }) ∧
        (off = 0x004 → t = { s with failfast := v.getLsbD 0, strict := v.getLsbD 1 }) ∧
        (off = 0x010 → t = { s with time := v ++ s.time.extractLsb' 0 32 }) ∧
        (off = 0x014 → t = { s with time := s.time.extractLsb' 32 32 ++ v }) ∧
        (off = 0x018 → t = { s with ctr := v ++ s.ctr.extractLsb' 0 32 }) ∧
        (off = 0x01C → t = { s with ctr := s.ctr.extractLsb' 32 32 ++ v }) ∧
        (off = 0x024 → t = { s with toklen := v }) ∧
        (off = 0x028 → t = { s with keylen := v }) ∧
        (0x100 ≤ off → off < 0x200 →
          t = { s with token := s.token.writeWord ((off - 0x100) / 4) v }) ∧
        (0x200 ≤ off → off < 0x2A0 →
          t = { s with key := s.key.writeWord ((off - 0x200) / 4) v }))

/-- R67: what an aligned 32-bit read returns when BUSY = 0 or the offset reads exactly, at every
offset of the window; the read changes nothing but the host's variable. -/
def Obligations.AlignedReadRule : Prop :=
  ∀ (s : State) (off x : Nat), off < 4096 → off % 4 = 0 →
    (s.busy = false ∨ ReadsWhileBusy off) →
    ∃ v : Word, hostAccess s (.read .four off x) = .next (s.bindVar x v) ∧
      (off = 0x000 → v = 0x544F5450) ∧
      (off = 0x004 → v.toNat = s.failfast.toNat + 2 * s.strict.toNat) ∧
      (off = 0x008 → v = 0) ∧ (off = 0x00C → v = statusWord s) ∧
      (off = 0x010 → v.toNat = s.time.toNat / 2 ^ 32) ∧
      (off = 0x014 → v.toNat = s.time.toNat % 2 ^ 32) ∧
      (off = 0x018 → v.toNat = s.ctr.toNat / 2 ^ 32) ∧
      (off = 0x01C → v.toNat = s.ctr.toNat % 2 ^ 32) ∧
      (off = 0x020 → v.toNat = s.secrem.toNat) ∧ (off = 0x024 → v = s.toklen) ∧
      (off = 0x028 → v = s.keylen) ∧ (off = 0x02C → v.toNat = s.code.toNat) ∧
      (off = 0x030 → v.toNat = fromBe (s.digits.toList.take 4)) ∧
      (off = 0x034 → v.toNat = fromBe (s.digits.toList.drop 4 ++ [0, 0])) ∧
      (off = 0x038 → v.toNat = s.offset.toNat) ∧ (off = 0x03C → v.toNat = s.snum.toNat) ∧
      (0x040 ≤ off → off < 0x054 →
        v.toNat = fromBe ((s.digest.toList.drop (off - 0x040)).take 4)) ∧
      (off = 0x058 → v = 0x00A00100) ∧ (off = 0x05C → v = 0x0000061E) ∧
      (0x100 ≤ off → off < 0x200 → v.toNat = fromBe
        [s.token.readByte (off - 0x100), s.token.readByte (off - 0x100 + 1),
          s.token.readByte (off - 0x100 + 2), s.token.readByte (off - 0x100 + 3)]) ∧
      (0x200 ≤ off → off < 0x2A0 → v.toNat = fromBe
        [s.key.readByte (off - 0x200), s.key.readByte (off - 0x200 + 1),
          s.key.readByte (off - 0x200 + 2), s.key.readByte (off - 0x200 + 3)]) ∧
      (IsReservedOffset off → v = 0)

/-- No host read changes the block, whatever its offset, and a read the rule R69 leaves open draws
one free value, which the host's variable gets. The counter of draws and the opaque constant it is
applied to are the model's (log 2); that CMD is among these offsets while BUSY = 1 is the model's
reading of R69 against R24 (log 6). Nothing is said of what the value is. -/
def Obligations.ReadsLeaveBlockUnchanged : Prop :=
  (∀ (s t : State) (size : AccessSize) (off : Int) (x : Nat),
    hostAccess s (.read size off x) = .next t → SameBlock s t) ∧
  ∀ (s : State) (off x : Nat), off < 4096 → off % 4 = 0 → s.busy = true →
    ¬ReadsWhileBusy off → ∃ t, hostAccess s (.read .four off x) = .next t ∧
      t.env.draws = s.env.draws + 1 ∧
      t.env.vars = (x, Config.busyRead s.env.draws) :: s.env.vars

/-- A host access inside the window of another size than four bytes or at an offset not a multiple
of 4 is a BusFault at its address, for every base of the window, and no other access of a defined
offset is; an access outside the window does not reach the block. That a read there binds no host
variable is the model's choice (log 7). -/
def Obligations.UndefinedAccessFaults : Prop :=
  (∀ (s : State) (off : Nat) (size : AccessSize) (x : Nat) (v : Word), off < 4096 →
    (size ≠ .four ∨ off % 4 ≠ 0) →
    memRead s (Config.totpBase + off) size x = .fault (.busFault (Config.totpBase + off)) ∧
    memWrite s (Config.totpBase + off) size v = .fault (.busFault (Config.totpBase + off))) ∧
  (∀ (s : State) (off : Nat) (x : Nat) (v : Word), off < 4096 → off % 4 = 0 →
    (∃ t, memRead s (Config.totpBase + off) .four x = .next t) ∧
    ∃ t, memWrite s (Config.totpBase + off) .four v = .next t) ∧
  ∀ (s : State) (a : Nat) (size : AccessSize) (x : Nat) (v : Word),
    (a < Config.totpBase ∨ Config.totpBase + 4096 ≤ a) →
    memRead s a size x = .next s ∧ memWrite s a size v = .next s

/-- The packing of the buffers (R45, R46, R64): a word written to word `j` of TOKEN or KEY puts its
most significant byte at byte `4 j`, and leaves every other byte alone. -/
def Obligations.BufferWordPacking : Prop :=
  (∀ (s : State) (j : Fin 64) (v : Word), s.busy = false → s.token.wf = true →
    ∃ t, hostAccess s (.write .four ((0x100 + 4 * j.val : Nat) : Int) v) = .next t ∧
      (∀ k, k < 4 → (t.token.readByte (4 * j.val + k)).toNat =
        v.toNat / 256 ^ (3 - k) % 256) ∧
      (∀ i, i < 4 * j.val ∨ 4 * j.val + 4 ≤ i → t.token.readByte i = s.token.readByte i) ∧
      t = { s with token := t.token }) ∧
  ∀ (s : State) (j : Fin 40) (v : Word), s.busy = false → s.key.wf = true →
    ∃ t, hostAccess s (.write .four ((0x200 + 4 * j.val : Nat) : Int) v) = .next t ∧
      (∀ k, k < 4 → (t.key.readByte (4 * j.val + k)).toNat =
        v.toNat / 256 ^ (3 - k) % 256) ∧
      (∀ i, i < 4 * j.val ∨ 4 * j.val + 4 ≤ i → t.key.readByte i = s.key.readByte i) ∧
      t = { s with key := t.key }

/-- A host write while a command is pending never changes what the command does (R73, R286): the
command ends in the same state with the write before it as without it, OVR apart, whichever
register of the window is written. -/
def Obligations.BusyWriteDoesNotDisturb : Prop :=
  ∀ (s t u : State) (off : Nat) (v : Word), s.busy = true →
    hostAccess s (.write .four off v) = .next u → sequencerStep s = .next t →
    ∃ w, sequencerStep u = .next w ∧ { w with ovr := t.ovr } = t

/-! ### The host's program -/

/-- `cmd MNEMONIC` with no command pending is the acceptance of the command's word, and with one
pending it is dropped; either way the host goes on to its next statement. -/
def Obligations.HostCommandIsAcceptance : Prop :=
  ∀ (s : State) (i : Instr), s.env.hostStopped = false →
    s.env.program[s.env.hostPc]? = some (.cmd i) →
    (s.busy = false → hostStep s = .next (s.hostAdvance.accept (encode i))) ∧
    (s.busy = true → hostStep s = .next { s.hostAdvance with ovr := true })

/-- `ldtok` with no command pending loads TOKEN and TOKLEN: its writes leave the string in the first
bytes of TOKEN and its length in TOKLEN, and change nothing else of the block (R88). -/
def Obligations.LdtokLoadsToken : Prop :=
  ∀ (s : State) (bs : Bytes), s.busy = false → s.token.wf = true → bs.length ≤ 256 →
    ∃ t, runStmts (ldtokOp bs) s = .next t ∧ tokenOperand t = bs ∧
      SameBlock { s with token := t.token, toklen := t.toklen } t

/-! ### Invariants -/

/-- Every step from a state that meets the invariants of R53, with the canonical form of the
buffers, leads to one that meets them. The canonical form is the model's own (log 13). -/
def Obligations.StepKeepsBlockInv : Prop :=
  ∀ s t : State, BlockInv s → step s = .next t → BlockInv t

/-- The reset state meets the invariants. -/
def Obligations.ResetMeetsBlockInv : Prop := BlockInv State.reset

/-- R53: every state reached from the reset state, whatever the host's program and whatever the
order of events, meets the invariants the rule lists; and once every byte of DIGITS is an ASCII
digit, only a reset takes one back to 0. -/
def Obligations.ReachableStatesMeetR53 : Prop :=
  (∀ s t : State, step s = .next t → (∀ b ∈ s.digits.toList, IsAsciiDigit b) →
    (∃ b ∈ t.digits.toList, ¬IsAsciiDigit b) →
    (nextEvent s).1 = .hardReset ∨ ((nextEvent s).1 = .sequencer ∧ s.busy = true ∧
      decodeCommand s.pending = .ok .srst)) ∧
  ∀ (env : Env) (k : Nat) (t : State),
    Host.Core.run Sys2Proof.core k (State.reset.withEnv env) = .next t →
    (t.secrem.toNat = 0 ∨ (1 ≤ t.secrem.toNat ∧ t.secrem.toNat ≤ 30)) ∧
    t.code.toNat < 1000000 ∧ t.offset.toNat < 16 ∧ t.snum.toNat < 2 ^ 31 ∧
    (∀ b ∈ t.digits.toList, b = 0 ∨ IsAsciiDigit b) ∧ (t.err = true ↔ t.errcode ≠ 0) ∧
    (t.busy = true → t.done = false) ∧
    (t.valid = true → t.code.toNat = t.snum.toNat % 1000000 ∧
      t.offset.toNat = (t.digest.toList.getD 19 0).toNat % 16 ∧ t.digits = format6 t.code)
end

