-- ==== Sys2Proof/Laws/Memory.lean ====
section
/-! SUPPORT. The laws of the byte buffers: a read after a write, the canonical form, and that
canonical buffers which read the same are the same. -/

namespace Sys2Proof.Laws

open Sys2Proof.Machine

/-- The canonical form of a longer list: the head's byte is listed rightly, lies below the rest,
and the rest is canonical. -/
theorem wf_cons {k : Nat} {b : Byte} {m : Memory} :
    Memory.wf ((k, b) :: m) = true ↔
      (b ≠ Memory.unlisted ∧ (∀ c ∈ m, k < c.1)) ∧ Memory.wf m = true := by
  simp only [Memory.wf, List.pairwise_cons, List.all_cons, Bool.and_eq_true, decide_eq_true_eq]
  tauto

theorem within_cons {n k : Nat} {b : Byte} {m : Memory} :
    Memory.within n ((k, b) :: m) = true ↔ k < n ∧ Memory.within n m = true := by
  simp [Memory.within]

@[simp] theorem readByte_nil (i : Nat) : Memory.readByte [] i = Memory.unlisted := rfl

theorem readByte_cons (k : Nat) (b : Byte) (m : Memory) (i : Nat) :
    Memory.readByte ((k, b) :: m) i = if k = i then b else Memory.readByte m i := rfl

/-- An index below every listed one reads as unlisted. -/
theorem readByte_below {m : Memory} {i : Nat} (h : ∀ c ∈ m, i < c.1) :
    m.readByte i = Memory.unlisted := by
  induction m with
  | nil => rfl
  | cons c m ih =>
    have hc := h c (by simp)
    rw [readByte_cons, if_neg (by omega)]
    exact ih fun d hd => h d (by simp [hd])

/-- The indexes a write leaves listed: the old ones and at most the written one. -/
theorem mem_writeByte {m : Memory} {i : Nat} {v : Byte} {c : Host.Cell}
    (h : c ∈ m.writeByte i v) : c ∈ m ∨ c = (i, v) := by
  induction m with
  | nil =>
    simp only [Memory.writeByte] at h
    split at h <;> simp_all
  | cons d m ih =>
    simp only [Memory.writeByte] at h
    split at h
    · split at h <;> simp_all
      tauto
    · split at h
      · split at h <;> simp_all
        tauto
      · rcases List.mem_cons.1 h with h | h
        · simp [h]
        · rcases ih h with h | h <;> simp [h]

/-- A write keeps the canonical form. -/
theorem writeByte_wf {m : Memory} (h : m.wf = true) (i : Nat) (v : Byte) :
    (m.writeByte i v).wf = true := by
  induction m with
  | nil =>
    simp only [Memory.writeByte]
    split
    · rfl
    · simp [Memory.wf, *]
  | cons c m ih =>
    obtain ⟨k, b⟩ := c
    obtain ⟨⟨hb, hk⟩, hm⟩ := wf_cons.1 h
    simp only [Memory.writeByte]
    split
    · split
      · exact h
      · refine wf_cons.2 ⟨⟨‹_›, ?_⟩, h⟩
        intro c hc
        rcases List.mem_cons.1 hc with rfl | hc
        · assumption
        · exact Nat.lt_trans ‹_› (hk c hc)
    · split
      · split
        · exact hm
        · exact wf_cons.2 ⟨⟨‹_›, by subst i; exact hk⟩, hm⟩
      · refine wf_cons.2 ⟨⟨hb, fun c hc => ?_⟩, ih hm⟩
        rcases mem_writeByte hc with hc | rfl
        · exact hk c hc
        · simp only; omega

/-- A write below the bound keeps the bound. -/
theorem writeByte_within {n : Nat} {m : Memory} (h : m.within n = true) {i : Nat} (hi : i < n)
    (v : Byte) : (m.writeByte i v).within n = true := by
  simp only [Memory.within, List.all_eq_true, decide_eq_true_eq] at *
  intro c hc
  rcases mem_writeByte hc with hc | rfl
  · exact h c hc
  · exact hi

/-- A read after a write: the byte written there, the old byte elsewhere. -/
theorem readByte_writeByte {m : Memory} (h : m.wf = true) (i j : Nat) (v : Byte) :
    (m.writeByte i v).readByte j = if j = i then v else m.readByte j := by
  induction m with
  | nil =>
    simp only [Memory.writeByte]
    split
    · simp_all
    · simp [readByte_cons, eq_comm]
  | cons c m ih =>
    obtain ⟨k, b⟩ := c
    obtain ⟨⟨hb, hk⟩, hm⟩ := wf_cons.1 h
    have hlow : ∀ j, j ≤ k → Memory.readByte m j = Memory.unlisted := fun j hj =>
      readByte_below fun c hc => Nat.lt_of_le_of_lt hj (hk c hc)
    simp only [Memory.writeByte]
    split
    · split
      · by_cases hj : j = i
        · subst hj
          simp [readByte_cons, show ¬k = j by omega, hlow j (by omega), *]
        · simp [hj]
      · rw [readByte_cons]
        by_cases hj : j = i
        · rw [if_pos hj.symm, if_pos hj]
        · rw [if_neg (Ne.symm hj), if_neg hj]
    · split
      · subst i
        split
        · by_cases hj : j = k
          · simp [hlow k (Nat.le_refl k), *]
          · simp [readByte_cons, hj, Ne.symm hj]
        · by_cases hj : j = k
          · simp [readByte_cons, hj]
          · simp [readByte_cons, hj, Ne.symm hj]
      · rw [readByte_cons, ih hm, readByte_cons]
        by_cases hj : j = i
        · simp [hj, show ¬k = i by omega]
        · simp [hj]

/-- Writing bytes one after another keeps the canonical form. -/
theorem writeBytes_wf {m : Memory} (h : m.wf = true) (i : Nat) (bs : Bytes) :
    (m.writeBytes i bs).wf = true := by
  induction bs generalizing m i with
  | nil => exact h
  | cons b bs ih => exact ih (writeByte_wf h i b) (i + 1)

/-- Writing bytes below the bound keeps the bound. -/
theorem writeBytes_within {n : Nat} {m : Memory} (h : m.within n = true) {i : Nat} {bs : Bytes}
    (hi : i + bs.length ≤ n) : (m.writeBytes i bs).within n = true := by
  induction bs generalizing m i with
  | nil => exact h
  | cons b bs ih =>
    simp only [List.length_cons] at hi
    exact ih (writeByte_within h (by omega) b) (by omega)

/-- A read after writing a byte string at `i`. -/
theorem readByte_writeBytes {m : Memory} (h : m.wf = true) (i j : Nat) (bs : Bytes) :
    (m.writeBytes i bs).readByte j =
      if i ≤ j ∧ j < i + bs.length then bs.getD (j - i) 0 else m.readByte j := by
  induction bs generalizing m i with
  | nil => simp [Memory.writeBytes]
  | cons b bs ih =>
    rw [Memory.writeBytes, ih (writeByte_wf h i b), readByte_writeByte h, List.length_cons]
    rcases Nat.lt_trichotomy j i with hj | rfl | hj
    · simp [show ¬(i + 1 ≤ j) by omega, show ¬j = i by omega, show ¬(i ≤ j) by omega]
    · simp
    · have hs : j - i = (j - (i + 1)) + 1 := by omega
      by_cases hl : j < i + 1 + bs.length
      · rw [if_pos ⟨by omega, hl⟩, if_pos ⟨by omega, by omega⟩, hs]
        simp
      · rw [if_neg (by omega), if_neg (by omega), if_neg (by omega)]

/-- Two canonical buffers that read the same everywhere are the same. -/
theorem eq_of_readByte_eq {m n : Memory} (hm : m.wf = true) (hn : n.wf = true)
    (h : ∀ i, m.readByte i = n.readByte i) : m = n := by
  induction m generalizing n with
  | nil =>
    cases n with
    | nil => rfl
    | cons d n =>
      obtain ⟨⟨hb, -⟩, -⟩ := wf_cons.1 hn
      have := h d.1
      rw [readByte_nil, readByte_cons, if_pos rfl] at this
      exact absurd this.symm hb
  | cons c m ih =>
    obtain ⟨k, b⟩ := c
    obtain ⟨⟨hb, hk⟩, hm'⟩ := wf_cons.1 hm
    cases n with
    | nil =>
      have := h k
      simp [readByte_cons] at this
      exact absurd this hb
    | cons d n =>
      obtain ⟨l, e⟩ := d
      obtain ⟨⟨he, hl⟩, hn'⟩ := wf_cons.1 hn
      have low_m : ∀ j, j ≤ k → Memory.readByte m j = Memory.unlisted := fun j hj =>
        readByte_below fun c hc => Nat.lt_of_le_of_lt hj (hk c hc)
      have low_n : ∀ j, j ≤ l → Memory.readByte n j = Memory.unlisted := fun j hj =>
        readByte_below fun c hc => Nat.lt_of_le_of_lt hj (hl c hc)
      have hkl : k = l := by
        rcases Nat.lt_trichotomy k l with hlt | heq | hgt
        · have := h k
          rw [readByte_cons, if_pos rfl, readByte_cons, if_neg (by omega), low_n k (by omega)]
            at this
          exact absurd this hb
        · exact heq
        · have := h l
          rw [readByte_cons, if_neg (by omega), low_m l (by omega), readByte_cons, if_pos rfl]
            at this
          exact absurd this.symm he
      subst hkl
      have hbe : b = e := by simpa [readByte_cons] using h k
      subst hbe
      refine congrArg _ (ih hm' hn' fun j => ?_)
      by_cases hj : k = j
      · rw [← hj, low_m k (Nat.le_refl k), low_n k (Nat.le_refl k)]
      · simpa [readByte_cons, hj] using h j

/-- A byte outside the bound of a buffer reads as unlisted. -/
theorem readByte_outside {n : Nat} {m : Memory} (h : m.within n = true) {i : Nat} (hi : n ≤ i) :
    m.readByte i = Memory.unlisted := by
  induction m with
  | nil => rfl
  | cons c m ih =>
    obtain ⟨hc, hm⟩ := within_cons.1 h
    rw [readByte_cons, if_neg (by omega), ih hm]

@[simp] theorem wordBytes_length (w : Word) : (wordBytes w).length = 4 := rfl

@[simp] theorem zeroFilled_length (n : Nat) (r : Bytes) :
    (zeroFilled n r).length = max n r.length := by
  simp [zeroFilled]; omega

/-- A byte of a zero-filled string: its own byte, or 0 past its end. -/
theorem getD_zeroFilled (n : Nat) (r : Bytes) (i : Nat) :
    (zeroFilled n r).getD i 0 = r.getD i 0 := by
  simp only [zeroFilled, List.getD_eq_getElem?_getD, List.getElem?_append,
    List.getElem?_replicate]
  split
  · rfl
  · split <;> simp_all

@[simp] theorem firstBytes_length (m : Memory) (n : Nat) : (m.firstBytes n).length = n := by
  simp [Memory.firstBytes]

theorem firstBytes_getElem (m : Memory) (n : Nat) {i : Nat} (h : i < (m.firstBytes n).length) :
    (m.firstBytes n)[i] = m.readByte i := by
  simp [Memory.firstBytes]

/-- A word written to a buffer keeps the canonical form. -/
theorem writeWord_wf {m : Memory} (h : m.wf = true) (j : Nat) (w : Word) :
    (m.writeWord j w).wf = true :=
  writeBytes_wf h _ _

/-- A word written inside a buffer keeps the bound. -/
theorem writeWord_within {n : Nat} {m : Memory} (h : m.within n = true) {j : Nat}
    (hj : 4 * j + 4 ≤ n) (w : Word) : (m.writeWord j w).within n = true :=
  writeBytes_within h (by simpa using hj)

/-- A byte after a word was written: one of the word's bytes, or the old byte. -/
theorem readByte_writeWord {m : Memory} (h : m.wf = true) (j : Nat) (w : Word) (i : Nat) :
    (m.writeWord j w).readByte i =
      if 4 * j ≤ i ∧ i < 4 * j + 4 then (wordBytes w).getD (i - 4 * j) 0 else m.readByte i :=
  readByte_writeBytes h (4 * j) i (wordBytes w)

/-- The word of its own bytes is the word. -/
theorem packWord_wordBytes (w : Word) :
    packWord ((wordBytes w).getD 0 0) ((wordBytes w).getD 1 0) ((wordBytes w).getD 2 0)
      ((wordBytes w).getD 3 0) = w := by
  simp only [packWord, wordBytes, List.getD_cons_zero, List.getD_cons_succ]
  refine BitVec.eq_of_getLsbD_eq fun i hi => ?_
  simp only [BitVec.getLsbD_append, BitVec.getLsbD_extractLsb']
  rcases Nat.lt_or_ge i 8 with h | h
  · simp [h]
  · rcases Nat.lt_or_ge i 16 with h' | h'
    · simp [show ¬i < 8 by omega, show i - 8 < 8 by omega, show 8 + (i - 8) = i by omega]
    · rcases Nat.lt_or_ge i 24 with h'' | h''
      · simp [show ¬i < 8 by omega, show ¬i - 8 < 8 by omega, show i - 8 - 8 < 8 by omega,
          show 16 + (i - 8 - 8) = i by omega]
      · simp [show ¬i < 8 by omega, show ¬i - 8 < 8 by omega, show ¬i - 8 - 8 < 8 by omega,
          show i - 8 - 8 - 8 < 8 by omega, show 24 + (i - 8 - 8 - 8) = i by omega]

/-- A word read back after it was written. -/
theorem readWord_writeWord {m : Memory} (h : m.wf = true) (j k : Nat) (w : Word) :
    (m.writeWord j w).readWord k = if k = j then w else m.readWord k := by
  simp only [Memory.readWord, readByte_writeWord h]
  by_cases hk : k = j
  · subst hk
    simpa using packWord_wordBytes w
  · rw [if_neg (by omega), if_neg (by omega), if_neg (by omega), if_neg (by omega), if_neg hk]

end Sys2Proof.Laws
end

