-- ==== Sys2Proof/Laws/Base32.lean ====
section
/-! SUPPORT. The laws of the base32 decoder: lengths, one list cell at a time, and what the decoder
answers. -/

namespace Sys2Proof.Laws

open Sys2Proof.Machine

@[simp] theorem msbBits_length {w : Nat} (v : BitVec w) : (msbBits v).length = w := by
  simp [msbBits]

@[simp] theorem valueBits_nil : valueBits [] = [] := rfl

@[simp] theorem valueBits_cons (v : BitVec 5) (vs : List (BitVec 5)) :
    valueBits (v :: vs) = msbBits v ++ valueBits vs := rfl

@[simp] theorem valueBits_length (vs : List (BitVec 5)) :
    (valueBits vs).length = 5 * vs.length := by
  induction vs with
  | nil => rfl
  | cons v vs ih => simp only [valueBits_cons, List.length_append, msbBits_length, ih,
      List.length_cons]; omega

/-- R105: the output has one byte for each eight bits. -/
@[simp] theorem wholeBytes_length (bs : List Bool) : (wholeBytes bs).length = bs.length / 8 := by
  induction bs using wholeBytes.induct with
  | case1 b0 b1 b2 b3 b4 b5 b6 b7 rest ih =>
    simp only [wholeBytes, List.length_cons, ih]
    omega
  | case2 bs h =>
    rw [wholeBytes.eq_def]
    split
    · exact absurd rfl (h _ _ _ _ _ _ _ _ _)
    · match bs, h with
      | [], _ => rfl
      | [_], _ => simp
      | [_, _], _ => simp
      | [_, _, _], _ => simp
      | [_, _, _, _], _ => simp
      | [_, _, _, _, _], _ => simp
      | [_, _, _, _, _, _], _ => simp
      | [_, _, _, _, _, _, _], _ => simp
      | a :: b :: c :: d :: e :: f :: g :: i :: r, h => exact absurd rfl (h a b c d e f g i r)

/-- R101: cleaning a token does not make it longer. -/
theorem clean_length_le (tok : Bytes) : (clean tok).length ≤ tok.length := by
  simpa [clean] using List.length_filter_le _ _

/-- The values of a token, one for each byte, when every byte has one. -/
theorem base32Vals_length {c : Bytes} {vs : List (BitVec 5)} (h : base32Vals c = some vs) :
    vs.length = c.length := by
  induction c generalizing vs with
  | nil => cases h; rfl
  | cons b c ih =>
    simp only [base32Vals] at h
    split at h
    · cases h
      simp [ih ‹_›]
    · cases h

/-- The values exist exactly when every byte has one (R103). -/
theorem base32Vals_eq_none {c : Bytes} :
    base32Vals c = none ↔ ∃ b ∈ c, base32Val b = none := by
  induction c with
  | nil => simp [base32Vals]
  | cons b c ih =>
    simp only [base32Vals, List.mem_cons, exists_eq_or_imp, ← ih]
    cases base32Val b <;> cases base32Vals c <;> simp

/-- A string of fewer than eight bits has no whole byte, and is its own tail. -/
theorem wholeBytes_short {bs : List Bool} (h : bs.length < 8) :
    wholeBytes bs = [] ∧ tailBits bs = bs := by
  match bs, h with
  | [], _ => exact ⟨rfl, rfl⟩
  | [_], _ => exact ⟨rfl, rfl⟩
  | [_, _], _ => exact ⟨rfl, rfl⟩
  | [_, _, _], _ => exact ⟨rfl, rfl⟩
  | [_, _, _, _], _ => exact ⟨rfl, rfl⟩
  | [_, _, _, _, _], _ => exact ⟨rfl, rfl⟩
  | [_, _, _, _, _, _], _ => exact ⟨rfl, rfl⟩
  | [_, _, _, _, _, _, _], _ => exact ⟨rfl, rfl⟩
  | _ :: _ :: _ :: _ :: _ :: _ :: _ :: _ :: _, h => simp only [List.length_cons] at h; omega

/-- A bit of a byte made of eight bits. -/
theorem byteOfBits_getMsbD (a b c d e f g h : Bool) {j : Nat} (hj : j < 8) :
    (byteOfBits [a, b, c, d, e, f, g, h]).getMsbD j = [a, b, c, d, e, f, g, h].getD j false := by
  have all : ∀ a b c d e f g h : Bool, ∀ j : Fin 8,
      (byteOfBits [a, b, c, d, e, f, g, h]).getMsbD j.val =
        [a, b, c, d, e, f, g, h].getD j.val false := by decide +kernel
  exact all a b c d e f g h ⟨j, hj⟩

/-- Bit `j` of whole byte `i` is bit `8 i + j` of the string (R105). -/
theorem wholeBytes_getMsbD (bs : List Bool) {i j : Nat} (hi : i < bs.length / 8) (hj : j < 8) :
    ((wholeBytes bs).getD i 0).getMsbD j = bs.getD (8 * i + j) false := by
  induction bs using wholeBytes.induct generalizing i with
  | case1 a b c d e f g h rest ih =>
    rw [wholeBytes]
    cases i with
    | zero =>
      rw [List.getD_cons_zero, byteOfBits_getMsbD a b c d e f g h hj]
      interval_cases j <;> rfl
    | succ i =>
      simp only [List.length_cons] at hi
      rw [List.getD_cons_succ, ih (by omega),
        show 8 * (i + 1) + j = 8 * i + j + 1 + 1 + 1 + 1 + 1 + 1 + 1 + 1 by omega]
      simp only [List.getD_cons_succ]
  | case2 bs hbs =>
    rw [← wholeBytes_length, wholeBytes.eq_def] at hi
    split at hi
    · exact absurd rfl (hbs _ _ _ _ _ _ _ _ _)
    · exact absurd hi (Nat.not_lt_zero i)

/-- The tail is what follows the whole bytes (R105). -/
theorem tailBits_eq_drop (bs : List Bool) : tailBits bs = bs.drop (8 * (bs.length / 8)) := by
  induction bs using wholeBytes.induct with
  | case1 a b c d e f g h rest ih =>
    rw [tailBits, ih]
    simp only [List.length_cons]
    rw [show 8 * ((rest.length + 1 + 1 + 1 + 1 + 1 + 1 + 1 + 1) / 8) =
      8 * (rest.length / 8) + 8 by omega]
    rfl
  | case2 bs hbs =>
    have hw : wholeBytes bs = [] := by
      rw [wholeBytes.eq_def]
      split
      · exact absurd rfl (hbs _ _ _ _ _ _ _ _ _)
      · rfl
    have hl := wholeBytes_length bs
    rw [hw, List.length_nil] at hl
    rw [(wholeBytes_short (by omega)).2, ← hl]
    rfl

/-- Bit `k` of the characters' bits: bit `k % 5` of value `k / 5` (R105). -/
theorem valueBits_getD (vs : List (BitVec 5)) {k : Nat} (h : k < 5 * vs.length) :
    (valueBits vs).getD k false = (vs.getD (k / 5) 0).getMsbD (k % 5) := by
  induction vs generalizing k with
  | nil => simp at h
  | cons v vs ih =>
    rw [valueBits_cons]
    rcases Nat.lt_or_ge k 5 with hk | hk
    · rw [List.getD_append _ _ _ _ (by simpa using hk), Nat.div_eq_of_lt hk, Nat.mod_eq_of_lt hk]
      simp [msbBits, List.getD_eq_getElem?_getD, hk]
    · simp only [List.length_cons] at h
      rw [List.getD_append_right _ _ _ _ (by simpa using hk), msbBits_length, ih (by omega),
        show k / 5 = (k - 5) / 5 + 1 by omega, show k % 5 = (k - 5) % 5 by omega]
      rfl

/-- Every byte has a value: so has the token. -/
theorem base32Vals_of_forall {c : Bytes} (h : ∀ b ∈ c, base32Val b ≠ none) :
    ∃ vs, base32Vals c = some vs ∧ vs.length = c.length := by
  cases hv : base32Vals c with
  | none =>
    obtain ⟨b, hb, hn⟩ := base32Vals_eq_none.1 hv
    exact absurd hn (h b hb)
  | some vs => exact ⟨vs, rfl, base32Vals_length hv⟩

/-- The alphabet read both ways (R102). -/
theorem base32Val_base32Char : ∀ v : BitVec 5, base32Val (base32Char v) = some v := by decide

/-- Cleaning keeps an alphabet character. -/
theorem clean_cons_base32Char (v : BitVec 5) (c : Bytes) :
    clean (base32Char v :: c) = base32Char v :: clean c := by
  have h : ∀ v : BitVec 5, base32Char v ≠ 0x20 ∧ upperByte (base32Char v) = base32Char v := by
    decide
  rw [clean, List.filter_cons_of_pos (by simpa using (h v).1), List.map_cons, (h v).2]
  rfl

/-- The bits of a value made of five bits. -/
theorem msbBits_valueOfBits : ∀ a b c d e : Bool,
    msbBits (valueOfBits [a, b, c, d, e]) = [a, b, c, d, e] := by decide

/-- The byte of its own bits. -/
theorem byteOfBits_msbBits : ∀ b : Byte, byteOfBits (msbBits b) = b := by decide +kernel

/-- The characters of a bit string are clean, and their values' bits are that string and fewer than
five zeros. -/
theorem bitsToChars_values (bs : List Bool) : clean (bitsToChars bs) = bitsToChars bs ∧
    ∃ vs k, k < 5 ∧ base32Vals (bitsToChars bs) = some vs ∧
      valueBits vs = bs ++ List.replicate k false := by
  have one : ∀ (v : BitVec 5) (ds : List Bool) (k : Nat), msbBits v = ds ++ List.replicate k false →
      k < 5 → clean [base32Char v] = [base32Char v] ∧
        ∃ vs k, k < 5 ∧ base32Vals [base32Char v] = some vs ∧
          valueBits vs = ds ++ List.replicate k false := fun v ds k hv hk =>
    ⟨by rw [clean_cons_base32Char]; rfl, [v], k, hk,
      by simp [base32Vals, base32Val_base32Char], by simpa using hv⟩
  induction bs using bitsToChars.induct with
  | case1 => exact ⟨rfl, [], 0, by decide, rfl, rfl⟩
  | case2 a => exact one _ [a] 4 (msbBits_valueOfBits _ _ _ _ _) (by decide)
  | case3 a b => exact one _ [a, b] 3 (msbBits_valueOfBits _ _ _ _ _) (by decide)
  | case4 a b c => exact one _ [a, b, c] 2 (msbBits_valueOfBits _ _ _ _ _) (by decide)
  | case5 a b c d => exact one _ [a, b, c, d] 1 (msbBits_valueOfBits _ _ _ _ _) (by decide)
  | case6 a b c d e rest ih =>
    obtain ⟨hc, vs, k, hk, hv, hb⟩ := ih
    refine ⟨?_, valueOfBits [a, b, c, d, e] :: vs, k, hk, ?_, ?_⟩
    · rw [bitsToChars, clean_cons_base32Char, hc]
    · rw [bitsToChars, base32Vals, base32Val_base32Char, hv]
    · rw [valueBits_cons, msbBits_valueOfBits, hb]
      rfl

/-- The whole bytes of the bits of a byte string, fewer than eight zeros after them, are that
string. -/
theorem wholeBytes_flatMap_msbBits (b : Bytes) {k : Nat} (hk : k < 8) :
    wholeBytes (b.flatMap msbBits ++ List.replicate k false) = b ∧
      tailBits (b.flatMap msbBits ++ List.replicate k false) = List.replicate k false := by
  induction b with
  | nil => exact wholeBytes_short (by simpa using hk)
  | cons x b ih =>
    have hx := byteOfBits_msbBits x
    obtain ⟨a, c, d, e, f, g, h, i, hm⟩ : ∃ a c d e f g h i, msbBits x = [a, c, d, e, f, g, h, i] :=
      ⟨_, _, _, _, _, _, _, _, rfl⟩
    rw [hm] at hx
    rw [List.flatMap_cons, hm]
    simp only [List.cons_append, List.nil_append, wholeBytes, tailBits, hx, ih, and_self]

/-- What the decoder answers when it succeeds (R105, R107). -/
theorem b32decode_ok {tok : Bytes} {strict : Bool} {r : Bytes}
    (h : b32decode tok strict = .ok r) :
    ∃ vs, base32Vals (clean tok) = some vs ∧ (5 * vs.length) % 8 < 5 ∧
      r = wholeBytes (valueBits vs) := by
  unfold b32decode at h
  split at h
  · cases h
  · split at h
    · cases h
    · split at h
      · cases h
      · cases h
        exact ⟨_, ‹_›, by omega, rfl⟩

/-- A token of `n` bytes decodes to at most `5n / 8` bytes. -/
theorem b32decode_length {tok : Bytes} {strict : Bool} {r : Bytes}
    (h : b32decode tok strict = .ok r) : 8 * r.length ≤ 5 * tok.length := by
  obtain ⟨vs, hv, -, rfl⟩ := b32decode_ok h
  have h1 := base32Vals_length hv
  have h2 := clean_length_le tok
  simp only [wholeBytes_length, valueBits_length]
  omega

/-- The KEY buffer after a key was stored, byte by byte (R108). -/
theorem storeKey_readByte {s : State} (h : s.key.wf = true) {r : Bytes}
    (hr : r.length ≤ Config.keyMax) {i : Nat} (hi : i < Config.keyMax) :
    (s.storeKey r).key.readByte i = r.getD i 0 := by
  have hl : (zeroFilled Config.keyMax r).length = Config.keyMax := by
    rw [zeroFilled_length]; omega
  rw [State.storeKey, readByte_writeBytes h, hl, if_pos ⟨Nat.zero_le i, by omega⟩, Nat.sub_zero,
    getD_zeroFilled]

/-- A stored key leaves what lies past the KEY buffer alone. -/
theorem storeKey_readByte_outside {s : State} (h : s.key.wf = true) {r : Bytes}
    (hr : r.length ≤ Config.keyMax) {i : Nat} (hi : Config.keyMax ≤ i) :
    (s.storeKey r).key.readByte i = s.key.readByte i := by
  rw [State.storeKey, readByte_writeBytes h, zeroFilled_length, if_neg (by omega)]

/-- A stored key keeps the KEY buffer's canonical form and bound. -/
theorem storeKey_wf {s : State} (h : s.key.wf = true) (hw : s.key.within Config.keyMax = true)
    {r : Bytes} (hr : r.length ≤ Config.keyMax) :
    (s.storeKey r).key.wf = true ∧ (s.storeKey r).key.within Config.keyMax = true :=
  ⟨writeBytes_wf h _ _, writeBytes_within hw (by rw [zeroFilled_length]; omega)⟩

/-- KEYLEN after a key was stored. -/
theorem storeKey_keylen_toNat (s : State) {r : Bytes} (hr : r.length ≤ Config.keyMax) :
    (s.storeKey r).keylen.toNat = r.length := by
  have : Config.keyMax = 160 := rfl
  simp only [State.storeKey, BitVec.toNat_ofNat]
  exact Nat.mod_eq_of_lt (by omega)

/-- A stored key is the key operand of the next HOTP or TOTP (R37). -/
theorem keyOperand_storeKey {s : State} (h : s.key.wf = true) {r : Bytes}
    (hr : r.length ≤ Config.keyMax) : keyOperand (s.storeKey r) = r := by
  rw [keyOperand, storeKey_keylen_toNat s hr]
  apply List.ext_getElem (by simp)
  intro i h1 h2
  rw [firstBytes_getElem, storeKey_readByte h hr (by omega)]
  simp [List.getD_eq_getElem?_getD, h2]

end Sys2Proof.Laws
end

