-- ==== Sys2Proof/Laws/Bytes.lean ====
section
/-! SUPPORT. The laws of bytes in words (R12, R64), in arithmetic, and of one-bit flags. -/

namespace Sys2Proof.Laws

open Sys2Proof.Machine

/-- A disjunction of a number and a higher one is their sum. -/
theorem or_mul_pow_eq_add {n x y : Nat} (h : x < 2 ^ n) : x ||| y * 2 ^ n = x + y * 2 ^ n := by
  rw [Nat.or_comm, ← Nat.shiftLeft_eq, ← Nat.shiftLeft_add_eq_or_of_lt h, Nat.add_comm]

/-- A disjunction of a number and a lower one is their sum. -/
theorem mul_pow_or_eq_add {n x y : Nat} (h : y < 2 ^ n) : x * 2 ^ n ||| y = x * 2 ^ n + y := by
  rw [Nat.or_comm, or_mul_pow_eq_add h, Nat.add_comm]

/-- Four bytes as a word: their big-endian number (R64). -/
theorem packWord_toNat (a b c d : Byte) : (packWord a b c d).toNat = fromBe [a, b, c, d] := by
  have := a.isLt; have := b.isLt; have := c.isLt; have := d.isLt
  simp only [packWord, fromBe, List.foldl_cons, List.foldl_nil, BitVec.toNat_append]
  rw [← Nat.shiftLeft_add_eq_or_of_lt d.isLt, ← Nat.shiftLeft_add_eq_or_of_lt c.isLt,
    ← Nat.shiftLeft_add_eq_or_of_lt b.isLt]
  simp only [Nat.shiftLeft_eq]
  omega

/-- The bytes of four bytes as a word are those bytes. -/
theorem wordBytes_packWord (a b c d : Byte) : wordBytes (packWord a b c d) = [a, b, c, d] := by
  have h := packWord_toNat a b c d
  have := a.isLt; have := b.isLt; have := c.isLt; have := d.isLt
  simp only [fromBe, List.foldl_cons, List.foldl_nil] at h
  simp only [wordBytes, List.cons.injEq, and_true]
  refine ⟨?_, ?_, ?_, ?_⟩ <;>
    (apply BitVec.eq_of_toNat_eq
     rw [BitVec.extractLsb'_toNat, h, Nat.shiftRight_eq_div_pow]
     omega)

/-- Byte `k` of a word's big-endian bytes. -/
theorem wordBytes_getD_toNat (v : Word) {k : Nat} (hk : k < 4) :
    ((wordBytes v).getD k 0).toNat = v.toNat / 256 ^ (3 - k) % 256 := by
  interval_cases k <;>
    simp [wordBytes, BitVec.extractLsb'_toNat, Nat.shiftRight_eq_div_pow]

/-- The high half of a 64-bit value. -/
theorem hiWord_toNat (v : DWord) : (hiWord v).toNat = v.toNat / 2 ^ 32 := by
  have := v.isLt
  simp only [hiWord, BitVec.extractLsb'_toNat, Nat.shiftRight_eq_div_pow]
  omega

/-- The low half of a 64-bit value. -/
theorem loWord_toNat (v : DWord) : (loWord v).toNat = v.toNat % 2 ^ 32 := by
  simp [loWord, BitVec.extractLsb'_toNat]

/-- `from_be(be_8(v)) = v` (R12). -/
theorem fromBe_dwordBytes (v : DWord) : fromBe (dwordBytes v) = v.toNat := by
  have := v.isLt
  simp only [fromBe, dwordBytes, wordBytes, hiWord, loWord, List.cons_append, List.nil_append,
    List.foldl_cons, List.foldl_nil, BitVec.extractLsb'_toNat, Nat.shiftRight_eq_div_pow]
  omega

/-- A flag at its bit. -/
theorem bitWord_toNat (b : Bool) {i : Nat} (hi : i < 32) : (bitWord b i).toNat = b.toNat * 2 ^ i := by
  have : 2 ^ i < 2 ^ 32 := Nat.pow_lt_pow_right (by decide) hi
  cases b
  · simp [bitWord]
  · simp only [bitWord, BitVec.ofBool_true, BitVec.toNat_shiftLeft, BitVec.toNat_setWidth,
      Nat.shiftLeft_eq, Bool.toNat_true, show (1 : BitVec 1).toNat % 2 ^ 32 = 1 from rfl, Nat.one_mul]
    exact Nat.mod_eq_of_lt this

end Sys2Proof.Laws
end

