-- ==== Sys2Proof/Laws/Codes.lean ====
section
/-! SUPPORT. The laws of dynamic truncation and of the formatter, in arithmetic. -/

namespace Sys2Proof.Laws

open Sys2Proof.Machine

/-- The four window bytes as a number, the top bit cleared (R191). -/
theorem windowBytes_toNat (a b c d : Byte) :
    (((a &&& 0x7F).setWidth 31 <<< 24) ||| (b.setWidth 31 <<< 16) ||| (c.setWidth 31 <<< 8) |||
      d.setWidth 31 : BitVec 31).toNat =
      a.toNat % 128 * 2 ^ 24 + b.toNat * 2 ^ 16 + c.toNat * 2 ^ 8 + d.toNat := by
  have ha := a.isLt; have hb := b.isLt; have hc := c.isLt; have hd := d.isLt
  have h7 : (a &&& 0x7F).toNat = a.toNat % 128 := by
    rw [BitVec.toNat_and]
    exact Nat.and_two_pow_sub_one_eq_mod a.toNat 7
  simp only [BitVec.toNat_or, BitVec.toNat_shiftLeft, BitVec.toNat_setWidth, h7, Nat.shiftLeft_eq]
  rw [show a.toNat % 128 % 2 ^ 31 * 2 ^ 24 % 2 ^ 31 = a.toNat % 128 * 2 ^ 8 * 2 ^ 16 by omega,
    show b.toNat % 2 ^ 31 * 2 ^ 16 % 2 ^ 31 = b.toNat * 2 ^ 16 by omega,
    show c.toNat % 2 ^ 31 * 2 ^ 8 % 2 ^ 31 = c.toNat * 2 ^ 8 by omega,
    show d.toNat % 2 ^ 31 = d.toNat by omega]
  rw [show a.toNat % 128 * 2 ^ 8 * 2 ^ 16 = a.toNat % 128 * 2 ^ 24 by omega,
    mul_pow_or_eq_add (n := 24) (by omega),
    show a.toNat % 128 * 2 ^ 24 + b.toNat * 2 ^ 16 = (a.toNat % 128 * 2 ^ 8 + b.toNat) * 2 ^ 16
      by omega,
    mul_pow_or_eq_add (n := 16) (by omega),
    show (a.toNat % 128 * 2 ^ 8 + b.toNat) * 2 ^ 16 + c.toNat * 2 ^ 8 =
      (a.toNat % 128 * 2 ^ 16 + b.toNat * 2 ^ 8 + c.toNat) * 2 ^ 8 by omega,
    mul_pow_or_eq_add (n := 8) (by omega)]

/-- A window byte is a byte of the digest's list. -/
theorem windowByte_eq_getD (h : Vector Byte 20) (o : BitVec 4) (i : Fin 4) :
    windowByte h o i = h.toList.getD (o.toNat + i.val) 0 := by
  have : o.toNat + i.val < 20 := by omega
  simp [windowByte, List.getD_eq_getElem?_getD, this]

/-- The offset is the last byte modulo 16 (R190). -/
theorem truncOffset_toNat (h : Vector Byte 20) :
    (truncOffset h).toNat = (h.toList.getD 19 0).toNat % 16 := by
  have h19 : h.toList.getD 19 0 = h[19] := by simp [List.getD_eq_getElem?_getD]
  have hm := Nat.and_two_pow_sub_one_eq_mod h[19].toNat 4
  rw [h19]
  simp only [truncOffset, BitVec.toNat_setWidth, BitVec.toNat_and]
  rw [show (0x0F : Byte).toNat = 2 ^ 4 - 1 from rfl, hm]
  omega

/-- The reduction is exact: a code fits 20 bits (R192). -/
theorem truncCode_toNat (h : Vector Byte 20) :
    (truncCode h).toNat = (truncNumber h).toNat % 1000000 := by
  simp only [truncCode, reduceCode, Config.modulus, Config.digits, BitVec.toNat_ofNat]
  omega

/-- A digit as a byte (R193). -/
theorem asciiDigit_toNat (c : BitVec 20) (k : Nat) :
    (asciiDigit c k).toNat = 0x30 + c.toNat / 10 ^ k % 10 := by
  simp only [asciiDigit, BitVec.toNat_ofNat]
  omega

/-- The formatter's bytes as a list. -/
theorem format6_toList (c : BitVec 20) :
    (format6 c).toList = [asciiDigit c 5, asciiDigit c 4, asciiDigit c 3, asciiDigit c 2,
      asciiDigit c 1, asciiDigit c 0] := rfl

end Sys2Proof.Laws
end

