-- ==== Sys2Proof/Laws/Decode.lean ====
section
/-! SUPPORT. The laws of the command word's fields and of the decoder, in arithmetic. -/

namespace Sys2Proof.Laws

/-- OPC is the word modulo 256 (R80). -/
theorem opcField_toNat (w : Word) : (opcField w).toNat = w.toNat % 256 := by
  simp [opcField, BitVec.extractLsb'_toNat]

/-- RSV is the word divided by 256 (R80). -/
theorem rsvField_toNat (w : Word) : (rsvField w).toNat = w.toNat / 256 := by
  have := w.isLt
  simp only [rsvField, BitVec.extractLsb'_toNat, Nat.shiftRight_eq_div_pow]
  omega

/-- An opcode from 0x08 on selects no command (R84). -/
theorem commandOfOpcode_reserved {b : Byte} (h : 8 ≤ b.toNat) : commandOfOpcode b = none := by
  unfold commandOfOpcode
  split <;> first | omega | rfl

/-- An opcode below 0x08 selects the command whose word it is (R82). -/
theorem commandOfOpcode_assigned {b : Byte} (h : b.toNat < 8) :
    ∃ i, commandOfOpcode b = some i ∧ (encode i).toNat = b.toNat := by
  unfold commandOfOpcode
  generalize b.toNat = n at h ⊢
  interval_cases n <;> exact ⟨_, rfl, rfl⟩

/-- A legal word decodes to a command (R85). -/
theorem decodeCommand_legal {w : Word} (h0 : w.toNat / 256 = 0) (h8 : w.toNat % 256 < 8) :
    ∃ i, decodeCommand w = .ok i ∧ encode i = w := by
  obtain ⟨i, hi, he⟩ := commandOfOpcode_assigned (b := opcField w) (by rwa [opcField_toNat])
  have hr : rsvField w = 0 := BitVec.eq_of_toNat_eq (by rw [rsvField_toNat, h0]; rfl)
  refine ⟨i, by simp [decodeCommand, hr, hi], BitVec.eq_of_toNat_eq ?_⟩
  rw [he, opcField_toNat]
  omega

/-- Any other word decodes to none (R85). -/
theorem decodeCommand_illegal {w : Word} (h : w.toNat / 256 ≠ 0 ∨ 8 ≤ w.toNat % 256) :
    ∃ r, decodeCommand w = .error r := by
  by_cases hr : rsvField w = 0
  · have h0 : w.toNat / 256 = 0 := by rw [← rsvField_toNat, hr]; rfl
    have ho := commandOfOpcode_reserved (b := opcField w) (by rw [opcField_toNat]; omega)
    exact ⟨.reservedOpcode (opcField w), by simp [decodeCommand, hr, ho]⟩
  · exact ⟨.reservedBits, by rw [decodeCommand, if_pos hr]⟩

end Sys2Proof.Laws
end

