-- ==== Sys2Proof/Laws/State.lean ====
section
/-! SUPPORT. Every named update of the state, field by field: true by rfl, and simp lemmas, so that
no proof unfolds a record update. -/

namespace Sys2Proof.Laws

open Sys2Proof.Machine

variable (s : State) (w : Word) (c : Bool) (e : CmdError) (r : DWord × BitVec 6) (g : CodeResult)
  (x pc : Nat) (v : Word) (bs : Bytes) (es : List Event)
  (env : Env)

/-! ### accept -/

@[simp] theorem accept_failfast : (s.accept w).failfast = s.failfast := rfl
@[simp] theorem accept_strict : (s.accept w).strict = s.strict := rfl
@[simp] theorem accept_busy : (s.accept w).busy = true := rfl
@[simp] theorem accept_done : (s.accept w).done = false := rfl
@[simp] theorem accept_err : (s.accept w).err = s.err := rfl
@[simp] theorem accept_valid : (s.accept w).valid = s.valid := rfl
@[simp] theorem accept_abort : (s.accept w).abort = s.abort := rfl
@[simp] theorem accept_ovr : (s.accept w).ovr = s.ovr := rfl
@[simp] theorem accept_errcode : (s.accept w).errcode = s.errcode := rfl
@[simp] theorem accept_lastop : (s.accept w).lastop = opcField w := rfl
@[simp] theorem accept_pending : (s.accept w).pending = w := rfl
@[simp] theorem accept_time : (s.accept w).time = s.time := rfl
@[simp] theorem accept_ctr : (s.accept w).ctr = s.ctr := rfl
@[simp] theorem accept_secrem : (s.accept w).secrem = s.secrem := rfl
@[simp] theorem accept_toklen : (s.accept w).toklen = s.toklen := rfl
@[simp] theorem accept_keylen : (s.accept w).keylen = s.keylen := rfl
@[simp] theorem accept_code : (s.accept w).code = s.code := rfl
@[simp] theorem accept_digits : (s.accept w).digits = s.digits := rfl
@[simp] theorem accept_offset : (s.accept w).offset = s.offset := rfl
@[simp] theorem accept_snum : (s.accept w).snum = s.snum := rfl
@[simp] theorem accept_digest : (s.accept w).digest = s.digest := rfl
@[simp] theorem accept_token : (s.accept w).token = s.token := rfl
@[simp] theorem accept_key : (s.accept w).key = s.key := rfl
@[simp] theorem accept_env : (s.accept w).env = s.env := rfl

/-! ### dropWrite -/

@[simp] theorem dropWrite_failfast : s.dropWrite.failfast = s.failfast := rfl
@[simp] theorem dropWrite_strict : s.dropWrite.strict = s.strict := rfl
@[simp] theorem dropWrite_busy : s.dropWrite.busy = s.busy := rfl
@[simp] theorem dropWrite_done : s.dropWrite.done = s.done := rfl
@[simp] theorem dropWrite_err : s.dropWrite.err = s.err := rfl
@[simp] theorem dropWrite_valid : s.dropWrite.valid = s.valid := rfl
@[simp] theorem dropWrite_abort : s.dropWrite.abort = s.abort := rfl
@[simp] theorem dropWrite_ovr : s.dropWrite.ovr = true := rfl
@[simp] theorem dropWrite_errcode : s.dropWrite.errcode = s.errcode := rfl
@[simp] theorem dropWrite_lastop : s.dropWrite.lastop = s.lastop := rfl
@[simp] theorem dropWrite_pending : s.dropWrite.pending = s.pending := rfl
@[simp] theorem dropWrite_time : s.dropWrite.time = s.time := rfl
@[simp] theorem dropWrite_ctr : s.dropWrite.ctr = s.ctr := rfl
@[simp] theorem dropWrite_secrem : s.dropWrite.secrem = s.secrem := rfl
@[simp] theorem dropWrite_toklen : s.dropWrite.toklen = s.toklen := rfl
@[simp] theorem dropWrite_keylen : s.dropWrite.keylen = s.keylen := rfl
@[simp] theorem dropWrite_code : s.dropWrite.code = s.code := rfl
@[simp] theorem dropWrite_digits : s.dropWrite.digits = s.digits := rfl
@[simp] theorem dropWrite_offset : s.dropWrite.offset = s.offset := rfl
@[simp] theorem dropWrite_snum : s.dropWrite.snum = s.snum := rfl
@[simp] theorem dropWrite_digest : s.dropWrite.digest = s.digest := rfl
@[simp] theorem dropWrite_token : s.dropWrite.token = s.token := rfl
@[simp] theorem dropWrite_key : s.dropWrite.key = s.key := rfl
@[simp] theorem dropWrite_env : s.dropWrite.env = s.env := rfl

/-! ### clearLatches -/

@[simp] theorem clearLatches_failfast : s.clearLatches.failfast = s.failfast := rfl
@[simp] theorem clearLatches_strict : s.clearLatches.strict = s.strict := rfl
@[simp] theorem clearLatches_busy : s.clearLatches.busy = s.busy := rfl
@[simp] theorem clearLatches_done : s.clearLatches.done = s.done := rfl
@[simp] theorem clearLatches_err : s.clearLatches.err = s.err := rfl
@[simp] theorem clearLatches_valid : s.clearLatches.valid = s.valid := rfl
@[simp] theorem clearLatches_abort : s.clearLatches.abort = false := rfl
@[simp] theorem clearLatches_ovr : s.clearLatches.ovr = false := rfl
@[simp] theorem clearLatches_errcode : s.clearLatches.errcode = s.errcode := rfl
@[simp] theorem clearLatches_lastop : s.clearLatches.lastop = s.lastop := rfl
@[simp] theorem clearLatches_pending : s.clearLatches.pending = s.pending := rfl
@[simp] theorem clearLatches_time : s.clearLatches.time = s.time := rfl
@[simp] theorem clearLatches_ctr : s.clearLatches.ctr = s.ctr := rfl
@[simp] theorem clearLatches_secrem : s.clearLatches.secrem = s.secrem := rfl
@[simp] theorem clearLatches_toklen : s.clearLatches.toklen = s.toklen := rfl
@[simp] theorem clearLatches_keylen : s.clearLatches.keylen = s.keylen := rfl
@[simp] theorem clearLatches_code : s.clearLatches.code = s.code := rfl
@[simp] theorem clearLatches_digits : s.clearLatches.digits = s.digits := rfl
@[simp] theorem clearLatches_offset : s.clearLatches.offset = s.offset := rfl
@[simp] theorem clearLatches_snum : s.clearLatches.snum = s.snum := rfl
@[simp] theorem clearLatches_digest : s.clearLatches.digest = s.digest := rfl
@[simp] theorem clearLatches_token : s.clearLatches.token = s.token := rfl
@[simp] theorem clearLatches_key : s.clearLatches.key = s.key := rfl
@[simp] theorem clearLatches_env : s.clearLatches.env = s.env := rfl

/-! ### withEnv -/

@[simp] theorem withEnv_failfast : (s.withEnv env).failfast = s.failfast := rfl
@[simp] theorem withEnv_strict : (s.withEnv env).strict = s.strict := rfl
@[simp] theorem withEnv_busy : (s.withEnv env).busy = s.busy := rfl
@[simp] theorem withEnv_done : (s.withEnv env).done = s.done := rfl
@[simp] theorem withEnv_err : (s.withEnv env).err = s.err := rfl
@[simp] theorem withEnv_valid : (s.withEnv env).valid = s.valid := rfl
@[simp] theorem withEnv_abort : (s.withEnv env).abort = s.abort := rfl
@[simp] theorem withEnv_ovr : (s.withEnv env).ovr = s.ovr := rfl
@[simp] theorem withEnv_errcode : (s.withEnv env).errcode = s.errcode := rfl
@[simp] theorem withEnv_lastop : (s.withEnv env).lastop = s.lastop := rfl
@[simp] theorem withEnv_pending : (s.withEnv env).pending = s.pending := rfl
@[simp] theorem withEnv_time : (s.withEnv env).time = s.time := rfl
@[simp] theorem withEnv_ctr : (s.withEnv env).ctr = s.ctr := rfl
@[simp] theorem withEnv_secrem : (s.withEnv env).secrem = s.secrem := rfl
@[simp] theorem withEnv_toklen : (s.withEnv env).toklen = s.toklen := rfl
@[simp] theorem withEnv_keylen : (s.withEnv env).keylen = s.keylen := rfl
@[simp] theorem withEnv_code : (s.withEnv env).code = s.code := rfl
@[simp] theorem withEnv_digits : (s.withEnv env).digits = s.digits := rfl
@[simp] theorem withEnv_offset : (s.withEnv env).offset = s.offset := rfl
@[simp] theorem withEnv_snum : (s.withEnv env).snum = s.snum := rfl
@[simp] theorem withEnv_digest : (s.withEnv env).digest = s.digest := rfl
@[simp] theorem withEnv_token : (s.withEnv env).token = s.token := rfl
@[simp] theorem withEnv_key : (s.withEnv env).key = s.key := rfl
@[simp] theorem withEnv_env : (s.withEnv env).env = env := rfl

/-! ### complete -/

@[simp] theorem complete_failfast : s.complete.failfast = s.failfast := rfl
@[simp] theorem complete_strict : s.complete.strict = s.strict := rfl
@[simp] theorem complete_busy : s.complete.busy = false := rfl
@[simp] theorem complete_done : s.complete.done = true := rfl
@[simp] theorem complete_err : s.complete.err = false := rfl
@[simp] theorem complete_valid : s.complete.valid = s.valid := rfl
@[simp] theorem complete_abort : s.complete.abort = s.abort := rfl
@[simp] theorem complete_ovr : s.complete.ovr = s.ovr := rfl
@[simp] theorem complete_errcode : s.complete.errcode = 0 := rfl
@[simp] theorem complete_lastop : s.complete.lastop = s.lastop := rfl
@[simp] theorem complete_pending : s.complete.pending = s.pending := rfl
@[simp] theorem complete_time : s.complete.time = s.time := rfl
@[simp] theorem complete_ctr : s.complete.ctr = s.ctr := rfl
@[simp] theorem complete_secrem : s.complete.secrem = s.secrem := rfl
@[simp] theorem complete_toklen : s.complete.toklen = s.toklen := rfl
@[simp] theorem complete_keylen : s.complete.keylen = s.keylen := rfl
@[simp] theorem complete_code : s.complete.code = s.code := rfl
@[simp] theorem complete_digits : s.complete.digits = s.digits := rfl
@[simp] theorem complete_offset : s.complete.offset = s.offset := rfl
@[simp] theorem complete_snum : s.complete.snum = s.snum := rfl
@[simp] theorem complete_digest : s.complete.digest = s.digest := rfl
@[simp] theorem complete_token : s.complete.token = s.token := rfl
@[simp] theorem complete_key : s.complete.key = s.key := rfl
@[simp] theorem complete_env : s.complete.env = s.env := rfl

/-! ### raise -/

@[simp] theorem raise_failfast : (s.raise c e).failfast = s.failfast := rfl
@[simp] theorem raise_strict : (s.raise c e).strict = s.strict := rfl
@[simp] theorem raise_busy : (s.raise c e).busy = false := rfl
@[simp] theorem raise_done : (s.raise c e).done = true := rfl
@[simp] theorem raise_err : (s.raise c e).err = true := rfl
@[simp] theorem raise_valid : (s.raise c e).valid = if c then false else s.valid := rfl
@[simp] theorem raise_abort : (s.raise c e).abort =
    if setsAbort e && s.failfast then true else s.abort := rfl
@[simp] theorem raise_ovr : (s.raise c e).ovr = s.ovr := rfl
@[simp] theorem raise_errcode : (s.raise c e).errcode = errorCode e := rfl
@[simp] theorem raise_lastop : (s.raise c e).lastop = s.lastop := rfl
@[simp] theorem raise_pending : (s.raise c e).pending = s.pending := rfl
@[simp] theorem raise_time : (s.raise c e).time = s.time := rfl
@[simp] theorem raise_ctr : (s.raise c e).ctr = s.ctr := rfl
@[simp] theorem raise_secrem : (s.raise c e).secrem = s.secrem := rfl
@[simp] theorem raise_toklen : (s.raise c e).toklen = s.toklen := rfl
@[simp] theorem raise_keylen : (s.raise c e).keylen = s.keylen := rfl
@[simp] theorem raise_code : (s.raise c e).code = s.code := rfl
@[simp] theorem raise_digits : (s.raise c e).digits = s.digits := rfl
@[simp] theorem raise_offset : (s.raise c e).offset = s.offset := rfl
@[simp] theorem raise_snum : (s.raise c e).snum = s.snum := rfl
@[simp] theorem raise_digest : (s.raise c e).digest = s.digest := rfl
@[simp] theorem raise_token : (s.raise c e).token = s.token := rfl
@[simp] theorem raise_key : (s.raise c e).key = s.key := rfl
@[simp] theorem raise_env : (s.raise c e).env = s.env := rfl

/-! ### storeTimestep -/

@[simp] theorem storeTimestep_failfast : (s.storeTimestep r).failfast = s.failfast := rfl
@[simp] theorem storeTimestep_strict : (s.storeTimestep r).strict = s.strict := rfl
@[simp] theorem storeTimestep_busy : (s.storeTimestep r).busy = s.busy := rfl
@[simp] theorem storeTimestep_done : (s.storeTimestep r).done = s.done := rfl
@[simp] theorem storeTimestep_err : (s.storeTimestep r).err = s.err := rfl
@[simp] theorem storeTimestep_valid : (s.storeTimestep r).valid = s.valid := rfl
@[simp] theorem storeTimestep_abort : (s.storeTimestep r).abort = s.abort := rfl
@[simp] theorem storeTimestep_ovr : (s.storeTimestep r).ovr = s.ovr := rfl
@[simp] theorem storeTimestep_errcode : (s.storeTimestep r).errcode = s.errcode := rfl
@[simp] theorem storeTimestep_lastop : (s.storeTimestep r).lastop = s.lastop := rfl
@[simp] theorem storeTimestep_pending : (s.storeTimestep r).pending = s.pending := rfl
@[simp] theorem storeTimestep_time : (s.storeTimestep r).time = s.time := rfl
@[simp] theorem storeTimestep_ctr : (s.storeTimestep r).ctr = r.1 := rfl
@[simp] theorem storeTimestep_secrem : (s.storeTimestep r).secrem = r.2 := rfl
@[simp] theorem storeTimestep_toklen : (s.storeTimestep r).toklen = s.toklen := rfl
@[simp] theorem storeTimestep_keylen : (s.storeTimestep r).keylen = s.keylen := rfl
@[simp] theorem storeTimestep_code : (s.storeTimestep r).code = s.code := rfl
@[simp] theorem storeTimestep_digits : (s.storeTimestep r).digits = s.digits := rfl
@[simp] theorem storeTimestep_offset : (s.storeTimestep r).offset = s.offset := rfl
@[simp] theorem storeTimestep_snum : (s.storeTimestep r).snum = s.snum := rfl
@[simp] theorem storeTimestep_digest : (s.storeTimestep r).digest = s.digest := rfl
@[simp] theorem storeTimestep_token : (s.storeTimestep r).token = s.token := rfl
@[simp] theorem storeTimestep_key : (s.storeTimestep r).key = s.key := rfl
@[simp] theorem storeTimestep_env : (s.storeTimestep r).env = s.env := rfl

/-! ### storeKey -/

@[simp] theorem storeKey_failfast : (s.storeKey bs).failfast = s.failfast := rfl
@[simp] theorem storeKey_strict : (s.storeKey bs).strict = s.strict := rfl
@[simp] theorem storeKey_busy : (s.storeKey bs).busy = s.busy := rfl
@[simp] theorem storeKey_done : (s.storeKey bs).done = s.done := rfl
@[simp] theorem storeKey_err : (s.storeKey bs).err = s.err := rfl
@[simp] theorem storeKey_valid : (s.storeKey bs).valid = s.valid := rfl
@[simp] theorem storeKey_abort : (s.storeKey bs).abort = s.abort := rfl
@[simp] theorem storeKey_ovr : (s.storeKey bs).ovr = s.ovr := rfl
@[simp] theorem storeKey_errcode : (s.storeKey bs).errcode = s.errcode := rfl
@[simp] theorem storeKey_lastop : (s.storeKey bs).lastop = s.lastop := rfl
@[simp] theorem storeKey_pending : (s.storeKey bs).pending = s.pending := rfl
@[simp] theorem storeKey_time : (s.storeKey bs).time = s.time := rfl
@[simp] theorem storeKey_ctr : (s.storeKey bs).ctr = s.ctr := rfl
@[simp] theorem storeKey_secrem : (s.storeKey bs).secrem = s.secrem := rfl
@[simp] theorem storeKey_toklen : (s.storeKey bs).toklen = s.toklen := rfl
@[simp] theorem storeKey_keylen : (s.storeKey bs).keylen = BitVec.ofNat 32 bs.length := rfl
@[simp] theorem storeKey_code : (s.storeKey bs).code = s.code := rfl
@[simp] theorem storeKey_digits : (s.storeKey bs).digits = s.digits := rfl
@[simp] theorem storeKey_offset : (s.storeKey bs).offset = s.offset := rfl
@[simp] theorem storeKey_snum : (s.storeKey bs).snum = s.snum := rfl
@[simp] theorem storeKey_digest : (s.storeKey bs).digest = s.digest := rfl
@[simp] theorem storeKey_token : (s.storeKey bs).token = s.token := rfl
@[simp] theorem storeKey_key : (s.storeKey bs).key =
    s.key.writeBytes 0 (zeroFilled Config.keyMax bs) := rfl
@[simp] theorem storeKey_env : (s.storeKey bs).env = s.env := rfl

/-! ### storeResults -/

@[simp] theorem storeResults_failfast : (s.storeResults g).failfast = s.failfast := rfl
@[simp] theorem storeResults_strict : (s.storeResults g).strict = s.strict := rfl
@[simp] theorem storeResults_busy : (s.storeResults g).busy = s.busy := rfl
@[simp] theorem storeResults_done : (s.storeResults g).done = s.done := rfl
@[simp] theorem storeResults_err : (s.storeResults g).err = s.err := rfl
@[simp] theorem storeResults_valid : (s.storeResults g).valid = true := rfl
@[simp] theorem storeResults_abort : (s.storeResults g).abort = s.abort := rfl
@[simp] theorem storeResults_ovr : (s.storeResults g).ovr = s.ovr := rfl
@[simp] theorem storeResults_errcode : (s.storeResults g).errcode = s.errcode := rfl
@[simp] theorem storeResults_lastop : (s.storeResults g).lastop = s.lastop := rfl
@[simp] theorem storeResults_pending : (s.storeResults g).pending = s.pending := rfl
@[simp] theorem storeResults_time : (s.storeResults g).time = s.time := rfl
@[simp] theorem storeResults_ctr : (s.storeResults g).ctr = s.ctr := rfl
@[simp] theorem storeResults_secrem : (s.storeResults g).secrem = s.secrem := rfl
@[simp] theorem storeResults_toklen : (s.storeResults g).toklen = s.toklen := rfl
@[simp] theorem storeResults_keylen : (s.storeResults g).keylen = s.keylen := rfl
@[simp] theorem storeResults_code : (s.storeResults g).code = g.code := rfl
@[simp] theorem storeResults_digits : (s.storeResults g).digits = g.digits := rfl
@[simp] theorem storeResults_offset : (s.storeResults g).offset = g.offset := rfl
@[simp] theorem storeResults_snum : (s.storeResults g).snum = g.snum := rfl
@[simp] theorem storeResults_digest : (s.storeResults g).digest = g.digest := rfl
@[simp] theorem storeResults_token : (s.storeResults g).token = s.token := rfl
@[simp] theorem storeResults_key : (s.storeResults g).key = s.key := rfl
@[simp] theorem storeResults_env : (s.storeResults g).env = s.env := rfl

/-! ### hardReset -/

@[simp] theorem hardReset_failfast : s.hardReset.failfast = State.reset.failfast := rfl
@[simp] theorem hardReset_strict : s.hardReset.strict = State.reset.strict := rfl
@[simp] theorem hardReset_busy : s.hardReset.busy = State.reset.busy := rfl
@[simp] theorem hardReset_done : s.hardReset.done = State.reset.done := rfl
@[simp] theorem hardReset_err : s.hardReset.err = State.reset.err := rfl
@[simp] theorem hardReset_valid : s.hardReset.valid = State.reset.valid := rfl
@[simp] theorem hardReset_abort : s.hardReset.abort = State.reset.abort := rfl
@[simp] theorem hardReset_ovr : s.hardReset.ovr = State.reset.ovr := rfl
@[simp] theorem hardReset_errcode : s.hardReset.errcode = State.reset.errcode := rfl
@[simp] theorem hardReset_lastop : s.hardReset.lastop = State.reset.lastop := rfl
@[simp] theorem hardReset_pending : s.hardReset.pending = State.reset.pending := rfl
@[simp] theorem hardReset_time : s.hardReset.time = State.reset.time := rfl
@[simp] theorem hardReset_ctr : s.hardReset.ctr = State.reset.ctr := rfl
@[simp] theorem hardReset_secrem : s.hardReset.secrem = State.reset.secrem := rfl
@[simp] theorem hardReset_toklen : s.hardReset.toklen = State.reset.toklen := rfl
@[simp] theorem hardReset_keylen : s.hardReset.keylen = State.reset.keylen := rfl
@[simp] theorem hardReset_code : s.hardReset.code = State.reset.code := rfl
@[simp] theorem hardReset_digits : s.hardReset.digits = State.reset.digits := rfl
@[simp] theorem hardReset_offset : s.hardReset.offset = State.reset.offset := rfl
@[simp] theorem hardReset_snum : s.hardReset.snum = State.reset.snum := rfl
@[simp] theorem hardReset_digest : s.hardReset.digest = State.reset.digest := rfl
@[simp] theorem hardReset_token : s.hardReset.token = State.reset.token := rfl
@[simp] theorem hardReset_key : s.hardReset.key = State.reset.key := rfl
@[simp] theorem hardReset_env : s.hardReset.env = s.env := rfl

/-! ### softReset -/

@[simp] theorem softReset_failfast : s.softReset.failfast = State.reset.failfast := rfl
@[simp] theorem softReset_strict : s.softReset.strict = State.reset.strict := rfl
@[simp] theorem softReset_busy : s.softReset.busy = State.reset.busy := rfl
@[simp] theorem softReset_done : s.softReset.done = true := rfl
@[simp] theorem softReset_err : s.softReset.err = State.reset.err := rfl
@[simp] theorem softReset_valid : s.softReset.valid = State.reset.valid := rfl
@[simp] theorem softReset_abort : s.softReset.abort = State.reset.abort := rfl
@[simp] theorem softReset_ovr : s.softReset.ovr = State.reset.ovr := rfl
@[simp] theorem softReset_errcode : s.softReset.errcode = State.reset.errcode := rfl
@[simp] theorem softReset_lastop : s.softReset.lastop = 0x07 := rfl
@[simp] theorem softReset_pending : s.softReset.pending = State.reset.pending := rfl
@[simp] theorem softReset_time : s.softReset.time = State.reset.time := rfl
@[simp] theorem softReset_ctr : s.softReset.ctr = State.reset.ctr := rfl
@[simp] theorem softReset_secrem : s.softReset.secrem = State.reset.secrem := rfl
@[simp] theorem softReset_toklen : s.softReset.toklen = State.reset.toklen := rfl
@[simp] theorem softReset_keylen : s.softReset.keylen = State.reset.keylen := rfl
@[simp] theorem softReset_code : s.softReset.code = State.reset.code := rfl
@[simp] theorem softReset_digits : s.softReset.digits = State.reset.digits := rfl
@[simp] theorem softReset_offset : s.softReset.offset = State.reset.offset := rfl
@[simp] theorem softReset_snum : s.softReset.snum = State.reset.snum := rfl
@[simp] theorem softReset_digest : s.softReset.digest = State.reset.digest := rfl
@[simp] theorem softReset_token : s.softReset.token = State.reset.token := rfl
@[simp] theorem softReset_key : s.softReset.key = State.reset.key := rfl
@[simp] theorem softReset_env : s.softReset.env = s.env := rfl

/-! ### bindVar -/

@[simp] theorem bindVar_failfast : (s.bindVar x v).failfast = s.failfast := rfl
@[simp] theorem bindVar_strict : (s.bindVar x v).strict = s.strict := rfl
@[simp] theorem bindVar_busy : (s.bindVar x v).busy = s.busy := rfl
@[simp] theorem bindVar_done : (s.bindVar x v).done = s.done := rfl
@[simp] theorem bindVar_err : (s.bindVar x v).err = s.err := rfl
@[simp] theorem bindVar_valid : (s.bindVar x v).valid = s.valid := rfl
@[simp] theorem bindVar_abort : (s.bindVar x v).abort = s.abort := rfl
@[simp] theorem bindVar_ovr : (s.bindVar x v).ovr = s.ovr := rfl
@[simp] theorem bindVar_errcode : (s.bindVar x v).errcode = s.errcode := rfl
@[simp] theorem bindVar_lastop : (s.bindVar x v).lastop = s.lastop := rfl
@[simp] theorem bindVar_pending : (s.bindVar x v).pending = s.pending := rfl
@[simp] theorem bindVar_time : (s.bindVar x v).time = s.time := rfl
@[simp] theorem bindVar_ctr : (s.bindVar x v).ctr = s.ctr := rfl
@[simp] theorem bindVar_secrem : (s.bindVar x v).secrem = s.secrem := rfl
@[simp] theorem bindVar_toklen : (s.bindVar x v).toklen = s.toklen := rfl
@[simp] theorem bindVar_keylen : (s.bindVar x v).keylen = s.keylen := rfl
@[simp] theorem bindVar_code : (s.bindVar x v).code = s.code := rfl
@[simp] theorem bindVar_digits : (s.bindVar x v).digits = s.digits := rfl
@[simp] theorem bindVar_offset : (s.bindVar x v).offset = s.offset := rfl
@[simp] theorem bindVar_snum : (s.bindVar x v).snum = s.snum := rfl
@[simp] theorem bindVar_digest : (s.bindVar x v).digest = s.digest := rfl
@[simp] theorem bindVar_token : (s.bindVar x v).token = s.token := rfl
@[simp] theorem bindVar_key : (s.bindVar x v).key = s.key := rfl
@[simp] theorem bindVar_env : (s.bindVar x v).env = { s.env with vars := (x, v) :: s.env.vars } :=
  rfl

/-! ### hostGoto -/

@[simp] theorem hostGoto_failfast : (s.hostGoto pc).failfast = s.failfast := rfl
@[simp] theorem hostGoto_strict : (s.hostGoto pc).strict = s.strict := rfl
@[simp] theorem hostGoto_busy : (s.hostGoto pc).busy = s.busy := rfl
@[simp] theorem hostGoto_done : (s.hostGoto pc).done = s.done := rfl
@[simp] theorem hostGoto_err : (s.hostGoto pc).err = s.err := rfl
@[simp] theorem hostGoto_valid : (s.hostGoto pc).valid = s.valid := rfl
@[simp] theorem hostGoto_abort : (s.hostGoto pc).abort = s.abort := rfl
@[simp] theorem hostGoto_ovr : (s.hostGoto pc).ovr = s.ovr := rfl
@[simp] theorem hostGoto_errcode : (s.hostGoto pc).errcode = s.errcode := rfl
@[simp] theorem hostGoto_lastop : (s.hostGoto pc).lastop = s.lastop := rfl
@[simp] theorem hostGoto_pending : (s.hostGoto pc).pending = s.pending := rfl
@[simp] theorem hostGoto_time : (s.hostGoto pc).time = s.time := rfl
@[simp] theorem hostGoto_ctr : (s.hostGoto pc).ctr = s.ctr := rfl
@[simp] theorem hostGoto_secrem : (s.hostGoto pc).secrem = s.secrem := rfl
@[simp] theorem hostGoto_toklen : (s.hostGoto pc).toklen = s.toklen := rfl
@[simp] theorem hostGoto_keylen : (s.hostGoto pc).keylen = s.keylen := rfl
@[simp] theorem hostGoto_code : (s.hostGoto pc).code = s.code := rfl
@[simp] theorem hostGoto_digits : (s.hostGoto pc).digits = s.digits := rfl
@[simp] theorem hostGoto_offset : (s.hostGoto pc).offset = s.offset := rfl
@[simp] theorem hostGoto_snum : (s.hostGoto pc).snum = s.snum := rfl
@[simp] theorem hostGoto_digest : (s.hostGoto pc).digest = s.digest := rfl
@[simp] theorem hostGoto_token : (s.hostGoto pc).token = s.token := rfl
@[simp] theorem hostGoto_key : (s.hostGoto pc).key = s.key := rfl
@[simp] theorem hostGoto_env : (s.hostGoto pc).env = { s.env with hostPc := pc } := rfl

/-! ### hostStop -/

@[simp] theorem hostStop_failfast : s.hostStop.failfast = s.failfast := rfl
@[simp] theorem hostStop_strict : s.hostStop.strict = s.strict := rfl
@[simp] theorem hostStop_busy : s.hostStop.busy = s.busy := rfl
@[simp] theorem hostStop_done : s.hostStop.done = s.done := rfl
@[simp] theorem hostStop_err : s.hostStop.err = s.err := rfl
@[simp] theorem hostStop_valid : s.hostStop.valid = s.valid := rfl
@[simp] theorem hostStop_abort : s.hostStop.abort = s.abort := rfl
@[simp] theorem hostStop_ovr : s.hostStop.ovr = s.ovr := rfl
@[simp] theorem hostStop_errcode : s.hostStop.errcode = s.errcode := rfl
@[simp] theorem hostStop_lastop : s.hostStop.lastop = s.lastop := rfl
@[simp] theorem hostStop_pending : s.hostStop.pending = s.pending := rfl
@[simp] theorem hostStop_time : s.hostStop.time = s.time := rfl
@[simp] theorem hostStop_ctr : s.hostStop.ctr = s.ctr := rfl
@[simp] theorem hostStop_secrem : s.hostStop.secrem = s.secrem := rfl
@[simp] theorem hostStop_toklen : s.hostStop.toklen = s.toklen := rfl
@[simp] theorem hostStop_keylen : s.hostStop.keylen = s.keylen := rfl
@[simp] theorem hostStop_code : s.hostStop.code = s.code := rfl
@[simp] theorem hostStop_digits : s.hostStop.digits = s.digits := rfl
@[simp] theorem hostStop_offset : s.hostStop.offset = s.offset := rfl
@[simp] theorem hostStop_snum : s.hostStop.snum = s.snum := rfl
@[simp] theorem hostStop_digest : s.hostStop.digest = s.digest := rfl
@[simp] theorem hostStop_token : s.hostStop.token = s.token := rfl
@[simp] theorem hostStop_key : s.hostStop.key = s.key := rfl
@[simp] theorem hostStop_env : s.hostStop.env = { s.env with hostStopped := true } := rfl

/-! ### setAgenda -/

@[simp] theorem setAgenda_failfast : (s.setAgenda es).failfast = s.failfast := rfl
@[simp] theorem setAgenda_strict : (s.setAgenda es).strict = s.strict := rfl
@[simp] theorem setAgenda_busy : (s.setAgenda es).busy = s.busy := rfl
@[simp] theorem setAgenda_done : (s.setAgenda es).done = s.done := rfl
@[simp] theorem setAgenda_err : (s.setAgenda es).err = s.err := rfl
@[simp] theorem setAgenda_valid : (s.setAgenda es).valid = s.valid := rfl
@[simp] theorem setAgenda_abort : (s.setAgenda es).abort = s.abort := rfl
@[simp] theorem setAgenda_ovr : (s.setAgenda es).ovr = s.ovr := rfl
@[simp] theorem setAgenda_errcode : (s.setAgenda es).errcode = s.errcode := rfl
@[simp] theorem setAgenda_lastop : (s.setAgenda es).lastop = s.lastop := rfl
@[simp] theorem setAgenda_pending : (s.setAgenda es).pending = s.pending := rfl
@[simp] theorem setAgenda_time : (s.setAgenda es).time = s.time := rfl
@[simp] theorem setAgenda_ctr : (s.setAgenda es).ctr = s.ctr := rfl
@[simp] theorem setAgenda_secrem : (s.setAgenda es).secrem = s.secrem := rfl
@[simp] theorem setAgenda_toklen : (s.setAgenda es).toklen = s.toklen := rfl
@[simp] theorem setAgenda_keylen : (s.setAgenda es).keylen = s.keylen := rfl
@[simp] theorem setAgenda_code : (s.setAgenda es).code = s.code := rfl
@[simp] theorem setAgenda_digits : (s.setAgenda es).digits = s.digits := rfl
@[simp] theorem setAgenda_offset : (s.setAgenda es).offset = s.offset := rfl
@[simp] theorem setAgenda_snum : (s.setAgenda es).snum = s.snum := rfl
@[simp] theorem setAgenda_digest : (s.setAgenda es).digest = s.digest := rfl
@[simp] theorem setAgenda_token : (s.setAgenda es).token = s.token := rfl
@[simp] theorem setAgenda_key : (s.setAgenda es).key = s.key := rfl
@[simp] theorem setAgenda_env : (s.setAgenda es).env = { s.env with agenda := es } := rfl

/-! ### draw -/

@[simp] theorem draw_failfast : s.draw.2.failfast = s.failfast := rfl
@[simp] theorem draw_strict : s.draw.2.strict = s.strict := rfl
@[simp] theorem draw_busy : s.draw.2.busy = s.busy := rfl
@[simp] theorem draw_done : s.draw.2.done = s.done := rfl
@[simp] theorem draw_err : s.draw.2.err = s.err := rfl
@[simp] theorem draw_valid : s.draw.2.valid = s.valid := rfl
@[simp] theorem draw_abort : s.draw.2.abort = s.abort := rfl
@[simp] theorem draw_ovr : s.draw.2.ovr = s.ovr := rfl
@[simp] theorem draw_errcode : s.draw.2.errcode = s.errcode := rfl
@[simp] theorem draw_lastop : s.draw.2.lastop = s.lastop := rfl
@[simp] theorem draw_pending : s.draw.2.pending = s.pending := rfl
@[simp] theorem draw_time : s.draw.2.time = s.time := rfl
@[simp] theorem draw_ctr : s.draw.2.ctr = s.ctr := rfl
@[simp] theorem draw_secrem : s.draw.2.secrem = s.secrem := rfl
@[simp] theorem draw_toklen : s.draw.2.toklen = s.toklen := rfl
@[simp] theorem draw_keylen : s.draw.2.keylen = s.keylen := rfl
@[simp] theorem draw_code : s.draw.2.code = s.code := rfl
@[simp] theorem draw_digits : s.draw.2.digits = s.digits := rfl
@[simp] theorem draw_offset : s.draw.2.offset = s.offset := rfl
@[simp] theorem draw_snum : s.draw.2.snum = s.snum := rfl
@[simp] theorem draw_digest : s.draw.2.digest = s.digest := rfl
@[simp] theorem draw_token : s.draw.2.token = s.token := rfl
@[simp] theorem draw_key : s.draw.2.key = s.key := rfl
@[simp] theorem draw_env : s.draw.2.env = { s.env with draws := s.env.draws + 1 } := rfl

/-! ### The free value a draw gives -/

@[simp] theorem draw_value : s.draw.1 = Config.busyRead s.env.draws := rfl

end Sys2Proof.Laws
end

