-- ==== Sys2Proof/Laws/Exec.lean ====
section
/-! SUPPORT. What each command's meaning can do, said once: every command answers a next state, and
it is one of the states named here. Proofs cite these lemmas and unfold no meaning. -/

namespace Sys2Proof.Laws

open Sys2Proof.Machine

/-- The checks pass exactly when the latch is clear and the length is in range. -/
theorem secretError_eq_none {s : State} {len : Word} {max : Nat} :
    s.secretError len max = none ↔ s.abort = false ∧ len.toNat ≤ max := by
  unfold State.secretError
  cases s.abort <;> simp

/-- The checks fail with ABORTED when the latch is set, else with LENGTH_RANGE (R255). -/
theorem secretError_eq_some {s : State} {len : Word} {max : Nat} {e : CmdError} :
    s.secretError len max = some e ↔
      (s.abort = true ∧ e = .aborted) ∨ (s.abort = false ∧ max < len.toNat ∧ e = .lengthRange) := by
  unfold State.secretError
  cases s.abort <;> simp [eq_comm]

/-- The checks of a command never report an illegal word. -/
theorem secretError_ne_illegal {s : State} {len : Word} {max : Nat} {e : CmdError}
    (h : s.secretError len max = some e) : e ≠ .illegalCmd := by
  rcases secretError_eq_some.1 h with ⟨-, rfl⟩ | ⟨-, -, rfl⟩ <;> simp

/-- The checks pass, as a rewriting rule. -/
theorem secretError_none {s : State} {len : Word} {max : Nat} (ha : s.abort = false)
    (hl : len.toNat ≤ max) : s.secretError len max = none :=
  secretError_eq_none.2 ⟨ha, hl⟩

theorem exec_nop (s : State) : exec .nop s = .next s.complete := rfl

theorem exec_tstep (s : State) :
    exec .tstep s = .next (s.storeTimestep (timestep s.time)).complete := rfl

theorem exec_clrerr (s : State) :
    exec .clrerr s = .next s.clearLatches.complete := rfl

theorem exec_srst (s : State) : exec .srst s = .next s.softReset := rfl

/-- HOTP fails one of its checks or stores a code. -/
theorem hotpOn_cases (H : HmacProcessor) (s : State) :
    (∃ e, s.secretError s.keylen Config.keyMax = some e ∧ hotpOn H s = .next (s.raise true e)) ∨
      (s.secretError s.keylen Config.keyMax = none ∧
        hotpOn H s = .next (s.storeResults (genCode H (keyOperand s) s.ctr)).complete) := by
  unfold hotpOn
  cases h : s.secretError s.keylen Config.keyMax with
  | none => exact .inr ⟨rfl, rfl⟩
  | some e => exact .inl ⟨e, rfl, rfl⟩

/-- TOTP fails one of its checks or stores a counter and a code. -/
theorem totpOn_cases (H : HmacProcessor) (s : State) :
    (∃ e, s.secretError s.keylen Config.keyMax = some e ∧ totpOn H s = .next (s.raise true e)) ∨
      (s.secretError s.keylen Config.keyMax = none ∧
        totpOn H s = .next ((s.storeTimestep (timestep s.time)).storeResults
          (genCode H (keyOperand s) (timestep s.time).1)).complete) := by
  unfold totpOn
  cases h : s.secretError s.keylen Config.keyMax with
  | none => exact .inr ⟨rfl, rfl⟩
  | some e => exact .inl ⟨e, rfl, rfl⟩

/-- B32DEC fails one of its checks, fails to decode, or stores a key. -/
theorem execB32dec_cases (s : State) :
    (∃ e, s.secretError s.toklen Config.tokMax = some e ∧
        execB32dec s = .next (s.raise false e)) ∨
      (s.secretError s.toklen Config.tokMax = none ∧
        ((∃ e, b32decode (tokenOperand s) s.strict = .error e ∧
            execB32dec s = .next (s.raise false (.decode e))) ∨
          ∃ r, b32decode (tokenOperand s) s.strict = .ok r ∧
            execB32dec s = .next (s.storeKey r).complete)) := by
  unfold execB32dec
  cases h : s.secretError s.toklen Config.tokMax with
  | some e => exact .inl ⟨e, rfl, rfl⟩
  | none =>
    refine .inr ⟨rfl, ?_⟩
    cases hd : b32decode (tokenOperand s) s.strict with
    | error e => exact .inl ⟨e, rfl, rfl⟩
    | ok r => exact .inr ⟨r, rfl, rfl⟩

/-- ROWCODE fails one of its checks, fails to decode, or stores a key and a code. -/
theorem rowcodeOn_cases (H : HmacProcessor) (s : State) :
    (∃ e, s.secretError s.toklen Config.tokMax = some e ∧
        rowcodeOn H s = .next (s.raise true e)) ∨
      (s.secretError s.toklen Config.tokMax = none ∧
        ((∃ e, b32decode (tokenOperand s) s.strict = .error e ∧
            rowcodeOn H s = .next (s.raise true (.decode e))) ∨
          ∃ r, b32decode (tokenOperand s) s.strict = .ok r ∧
            rowcodeOn H s =
              .next ((s.storeKey r).storeResults (genCode H r s.ctr)).complete)) := by
  unfold rowcodeOn
  cases h : s.secretError s.toklen Config.tokMax with
  | some e => exact .inl ⟨e, rfl, rfl⟩
  | none =>
    refine .inr ⟨rfl, ?_⟩
    cases hd : b32decode (tokenOperand s) s.strict with
    | error e => exact .inl ⟨e, rfl, rfl⟩
    | ok r => exact .inr ⟨r, rfl, rfl⟩

/-- A key decoded from the token operand fits the KEY buffer (R9: KEYMAX is floor(5 TOKMAX / 8)). -/
theorem decoded_length_le {s : State} {r : Bytes} (hn : s.toklen.toNat ≤ Config.tokMax)
    (h : b32decode (tokenOperand s) s.strict = .ok r) : r.length ≤ Config.keyMax := by
  have h1 := b32decode_length h
  have h2 : Config.tokMax = 256 := rfl
  have h3 : Config.keyMax = 160 := rfl
  simp only [tokenOperand, firstBytes_length] at h1
  omega

/-- The ways a command can end: with the error completion, as the successes of the four
secret-dependent commands, or as one of the four that always succeed. -/
inductive Ending (i : Instr) (s t : State) : Prop where
  | failed (e : CmdError) (he : e ≠ .illegalCmd) (h : t = s.raise (isCodeCommand i) e)
  | key (r : Bytes) (hi : i = .b32dec) (hn : s.toklen.toNat ≤ Config.tokMax)
      (hr : r.length ≤ Config.keyMax) (h : t = (s.storeKey r).complete)
  | time (hi : i = .tstep) (h : t = (s.storeTimestep (timestep s.time)).complete)
  | code (key : Bytes) (hi : i = .hotp)
      (h : t = (s.storeResults (genCode hmacProcessor key s.ctr)).complete)
  | timeCode (key : Bytes) (hi : i = .totp)
      (h : t = ((s.storeTimestep (timestep s.time)).storeResults
        (genCode hmacProcessor key (timestep s.time).1)).complete)
  | keyCode (r : Bytes) (hi : i = .rowcode) (hn : s.toklen.toNat ≤ Config.tokMax)
      (hr : r.length ≤ Config.keyMax)
      (h : t = ((s.storeKey r).storeResults (genCode hmacProcessor r s.ctr)).complete)
  | nothing (hi : i = .nop) (h : t = s.complete)
  | cleared (hi : i = .clrerr)
      (h : t = s.clearLatches.complete)
  | reset (hi : i = .srst) (h : t = s.softReset)

/-- Every next state of a command is one of its endings. -/
theorem exec_ending {i : Instr} {s t : State} (h : exec i s = .next t) : Ending i s t := by
  cases i with
  | nop => rw [exec_nop] at h; cases h; exact .nothing rfl rfl
  | tstep => rw [exec_tstep] at h; cases h; exact .time rfl rfl
  | clrerr => rw [exec_clrerr] at h; cases h; exact .cleared rfl rfl
  | srst => rw [exec_srst] at h; cases h; exact .reset rfl rfl
  | hotp =>
    rcases hotpOn_cases hmacProcessor s with ⟨e, hs, he⟩ | ⟨-, he⟩ <;>
      cases (he.symm.trans h)
    · exact .failed e (secretError_ne_illegal hs) rfl
    · exact .code _ rfl rfl
  | totp =>
    rcases totpOn_cases hmacProcessor s with ⟨e, hs, he⟩ | ⟨-, he⟩ <;>
      cases (he.symm.trans h)
    · exact .failed e (secretError_ne_illegal hs) rfl
    · exact .timeCode _ rfl rfl
  | b32dec =>
    rcases execB32dec_cases s with ⟨e, hs, he⟩ | ⟨hn, ⟨e, -, he⟩ | ⟨r, hr, he⟩⟩ <;>
      cases (he.symm.trans h)
    · exact .failed e (secretError_ne_illegal hs) rfl
    · exact .failed (.decode e) (by simp) rfl
    · have hn := (secretError_eq_none.1 hn).2
      exact .key r rfl hn (decoded_length_le hn hr) rfl
  | rowcode =>
    rcases rowcodeOn_cases hmacProcessor s with ⟨e, hs, he⟩ | ⟨hn, ⟨e, -, he⟩ | ⟨r, hr, he⟩⟩ <;>
      cases (he.symm.trans h)
    · exact .failed e (secretError_ne_illegal hs) rfl
    · exact .failed (.decode e) (by simp) rfl
    · have hn := (secretError_eq_none.1 hn).2
      exact .keyCode r rfl hn (decoded_length_le hn hr) rfl

/-- Every command answers a next state. -/
theorem exec_next (i : Instr) (s : State) : ∃ t, exec i s = .next t := by
  cases i with
  | nop => exact ⟨_, exec_nop s⟩
  | tstep => exact ⟨_, exec_tstep s⟩
  | clrerr => exact ⟨_, exec_clrerr s⟩
  | srst => exact ⟨_, exec_srst s⟩
  | hotp => rcases hotpOn_cases hmacProcessor s with ⟨e, -, h⟩ | ⟨-, h⟩ <;> exact ⟨_, h⟩
  | totp => rcases totpOn_cases hmacProcessor s with ⟨e, -, h⟩ | ⟨-, h⟩ <;> exact ⟨_, h⟩
  | b32dec =>
    rcases execB32dec_cases s with ⟨e, -, h⟩ | ⟨-, ⟨e, -, h⟩ | ⟨r, -, h⟩⟩ <;> exact ⟨_, h⟩
  | rowcode =>
    rcases rowcodeOn_cases hmacProcessor s with ⟨e, -, h⟩ | ⟨-, ⟨e, -, h⟩ | ⟨r, -, h⟩⟩ <;>
      exact ⟨_, h⟩

/-- The codes of R251: never 0, never above 6, and from 4 on exactly a DecodeError's. -/
theorem errorCode_range (e : CmdError) :
    errorCode e ≠ 0 ∧ (errorCode e).toNat ≤ 6 ∧
      (setsAbort e = true ↔ 4 ≤ (errorCode e).toNat) := by
  rcases e with _ | _ | _ | _ | _ | _ <;> decide

/-- A command that ends with ERR = 1 ended by raising an error. -/
theorem exec_failed {i : Instr} {s t : State} (h : exec i s = .next t) (he : t.err = true) :
    ∃ e, e ≠ .illegalCmd ∧ t = s.raise (isCodeCommand i) e := by
  cases exec_ending h with
  | failed e hne ht => exact ⟨e, hne, ht⟩
  | key r hi hn hr ht => subst ht; cases he
  | time hi ht => subst ht; cases he
  | code key hi ht => subst ht; cases he
  | timeCode key hi ht => subst ht; cases he
  | keyCode r hi hn hr ht => subst ht; cases he
  | nothing hi ht => subst ht; cases he
  | cleared hi ht => subst ht; cases he
  | reset hi ht => subst ht; cases he

/-- The commands that decode a token or make a code, by name. -/
theorem secretCommand_cases {i : Instr} (h : (isDecodeCommand i || isCodeCommand i) = true) :
    i = .b32dec ∨ i = .hotp ∨ i = .totp ∨ i = .rowcode := by
  cases i <;> simp_all [isDecodeCommand, isCodeCommand]

/-- While the latch is set, those commands raise ABORTED (R257). -/
theorem exec_aborted {s : State} {i : Instr} (ha : s.abort = true)
    (h : (isDecodeCommand i || isCodeCommand i) = true) :
    exec i s = .next (s.raise (isCodeCommand i) .aborted) := by
  have hs : ∀ len max, s.secretError len max = some .aborted := fun len max =>
    secretError_eq_some.2 (.inl ⟨ha, rfl⟩)
  rcases secretCommand_cases h with rfl | rfl | rfl | rfl
  · simp only [exec, execB32dec, hs]; rfl
  · simp only [exec, execHotp, hotpOn, hs]; rfl
  · simp only [exec, execTotp, totpOn, hs]; rfl
  · simp only [exec, execRowcode, rowcodeOn, hs]; rfl

/-- A token that does not decode is raised as its DecodeError (R108, R197). -/
theorem exec_decodeError {s : State} {i : Instr} {e : DecodeError} (hd : isDecodeCommand i = true)
    (hs : s.secretError s.toklen Config.tokMax = none)
    (h : b32decode (tokenOperand s) s.strict = .error e) :
    exec i s = .next (s.raise (isCodeCommand i) (.decode e)) := by
  cases i with
  | b32dec => simp only [exec, execB32dec, hs, h]; rfl
  | rowcode => simp only [exec, execRowcode, rowcodeOn, hs, h]; rfl
  | nop => cases hd
  | tstep => cases hd
  | hotp => cases hd
  | totp => cases hd
  | clrerr => cases hd
  | srst => cases hd

/-- Two states that differ in OVR alone make the same checks and hold the same operands. -/
theorem withOvr_reads (s : State) (b : Bool) :
    (∀ len max, ({ s with ovr := b } : State).secretError len max = s.secretError len max) ∧
      tokenOperand { s with ovr := b } = tokenOperand s ∧
      keyOperand { s with ovr := b } = keyOperand s :=
  ⟨fun _ _ => rfl, rfl, rfl⟩

end Sys2Proof.Laws
end

