-- ==== Sys2Proof/Laws/HostProgram.lean ====
section
/-! SUPPORT. The laws of the host's straight-line pieces of program (R88). -/

namespace Sys2Proof.Laws

open Sys2Proof.Machine

/-- A piece of program that runs through, and then another. -/
theorem runStmts_append {p : List Stmt} (q : List Stmt) {s t : State} (h : runStmts p s = .next t) :
    runStmts (p ++ q) s = runStmts q t := by
  induction p generalizing s with
  | nil => cases h; rfl
  | cons st p ih =>
    simp only [runStmts, List.cons_append] at h ⊢
    split at h
    · exact ih h
    · cases h
    · cases h

/-- `ldtok` writes one word for each four bytes begun (R88). -/
theorem stringWords_length (bs : Bytes) : (stringWords bs).length = (bs.length + 3) / 4 := by
  induction bs using stringWords.induct with
  | case1 => rfl
  | case2 a => simp [stringWords]
  | case3 a b => simp [stringWords]
  | case4 a b c => simp [stringWords]
  | case5 a b c d rest ih => simp only [stringWords, List.length_cons, ih]; omega

/-- The words of `ldtok` are the string's bytes and zeros after them (R88). -/
theorem stringWords_bytes (bs : Bytes) :
    ∃ k, (stringWords bs).flatMap wordBytes = bs ++ List.replicate k 0 := by
  have hp : ∀ a b c d : Byte, wordBytes (a ++ b ++ c ++ d) = [a, b, c, d] := wordBytes_packWord
  induction bs using stringWords.induct with
  | case1 => exact ⟨0, rfl⟩
  | case2 a => exact ⟨3, by simp [stringWords, hp]⟩
  | case3 a b => exact ⟨2, by simp [stringWords, hp]⟩
  | case4 a b c => exact ⟨1, by simp [stringWords, hp]⟩
  | case5 a b c d rest ih =>
    obtain ⟨k, hk⟩ := ih
    exact ⟨k, by simp [stringWords, hp, hk]⟩

end Sys2Proof.Laws
end

