-- ==== Sys2Proof/Laws/PerInstr.lean ====
section
/-! SUPPORT. The families of statements made one command at a time (LAWS.json). -/

namespace Sys2Proof.Laws.EncodingFields

/-- A command's word has its reserved bits 0 and an opcode the map assigns (R80, R82, R84). -/
def Statement (i : Instr) : Prop :=
  rsvField (encode i) = 0 ∧ commandOfOpcode (opcField (encode i)) = some i

theorem nop : Statement .nop := by unfold Statement; decide
theorem b32dec : Statement .b32dec := by unfold Statement; decide
theorem tstep : Statement .tstep := by unfold Statement; decide
theorem hotp : Statement .hotp := by unfold Statement; decide
theorem totp : Statement .totp := by unfold Statement; decide
theorem rowcode : Statement .rowcode := by unfold Statement; decide
theorem clrerr : Statement .clrerr := by unfold Statement; decide
theorem srst : Statement .srst := by unfold Statement; decide

end Sys2Proof.Laws.EncodingFields
end

