-- ==== Sys2Proof/Laws/Registers.lean ====
section
/-! SUPPORT. The laws of the register map and of the host's accesses. -/

namespace Sys2Proof.Laws

open Sys2Proof.Machine

/-- The rows of the register map stand at offsets below the buffers. -/
theorem regMap_lookup_buffers {off : Nat} (h : 0x100 ≤ off) : regMap.lookup off = none := by
  simp only [regMap, List.cons_append, List.nil_append, List.lookup]
  repeat' split
  all_goals first | rfl | (simp only [beq_iff_eq] at *; omega)

/-- TOKEN word `j` stands at 0x100 + 4j (R45). -/
theorem regAt_token (j : Fin 64) : regAt (0x100 + 4 * j.val) = .token j := by
  unfold regAt
  rw [regMap_lookup_buffers (by omega)]
  have h : 0x100 ≤ 0x100 + 4 * j.val ∧ 0x100 + 4 * j.val < 0x200 := by omega
  simp only [dif_pos h, Reg.token.injEq, Fin.ext_iff]
  omega

/-- KEY word `j` stands at 0x200 + 4j (R46). -/
theorem regAt_key (j : Fin 40) : regAt (0x200 + 4 * j.val) = .key j := by
  unfold regAt
  rw [regMap_lookup_buffers (by omega)]
  have h1 : ¬(0x100 ≤ 0x200 + 4 * j.val ∧ 0x200 + 4 * j.val < 0x200) := by omega
  have h2 : 0x200 ≤ 0x200 + 4 * j.val ∧ 0x200 + 4 * j.val < 0x2A0 := by omega
  simp only [dif_neg h1, dif_pos h2, Reg.key.injEq, Fin.ext_iff]
  omega

/-- The register at an offset inside the TOKEN buffer. -/
theorem regAt_inside_token {off : Nat} (h0 : 0x100 ≤ off) (h1 : off < 0x200) (ha : off % 4 = 0) :
    ∃ j : Fin 64, off = 0x100 + 4 * j.val ∧ regAt off = .token j := by
  have hj : off = 0x100 + 4 * ((off - 0x100) / 4) := by omega
  refine ⟨⟨(off - 0x100) / 4, by omega⟩, hj, ?_⟩
  have h := regAt_token ⟨(off - 0x100) / 4, by omega⟩
  rwa [← hj] at h

/-- The register at an offset inside the KEY buffer. -/
theorem regAt_inside_key {off : Nat} (h0 : 0x200 ≤ off) (h1 : off < 0x2A0) (ha : off % 4 = 0) :
    ∃ j : Fin 40, off = 0x200 + 4 * j.val ∧ regAt off = .key j := by
  have hj : off = 0x200 + 4 * ((off - 0x200) / 4) := by omega
  refine ⟨⟨(off - 0x200) / 4, by omega⟩, hj, ?_⟩
  have h := regAt_key ⟨(off - 0x200) / 4, by omega⟩
  rwa [← hj] at h

/-- The offsets past the KEY buffer are reserved (R47). -/
theorem regAt_past_key {off : Nat} (h : 0x2A0 ≤ off) : regAt off = .reserved := by
  unfold regAt
  rw [regMap_lookup_buffers (by omega)]
  simp only [dif_neg (show ¬(0x100 ≤ off ∧ off < 0x200) by omega),
    dif_neg (show ¬(0x200 ≤ off ∧ off < 0x2A0) by omega)]

/-- What R21 and R69 say of the register at an offset, by the classes of offsets in plain numbers. -/
theorem regAt_class {off : Nat} (ha : off % 4 = 0) :
    (IsReservedOffset off → regAt off = .reserved) ∧
    (IsReadOnlyOffset off → (regAt off).access = .ro) ∧
    (IsWritableOffset off → (regAt off).access = .rw ∨ (regAt off).access = .wo) ∧
    (ReadsWhileBusy off → (regAt off).exactWhileBusy = true) ∧
    (¬ReadsWhileBusy off → (regAt off).exactWhileBusy = false) := by
  have low : ∀ o : Fin 256, o.val % 4 = 0 →
      (IsReservedOffset o.val → regAt o.val = .reserved) ∧
      (IsReadOnlyOffset o.val → (regAt o.val).access = .ro) ∧
      (IsWritableOffset o.val → (regAt o.val).access = .rw ∨ (regAt o.val).access = .wo) ∧
      (ReadsWhileBusy o.val → (regAt o.val).exactWhileBusy = true) ∧
      (¬ReadsWhileBusy o.val → (regAt o.val).exactWhileBusy = false) := by decide +kernel
  rcases Nat.lt_or_ge off 0x100 with h | h
  · exact low ⟨off, h⟩ ha
  rcases Nat.lt_or_ge off 0x200 with h' | h'
  · obtain ⟨j, -, hj⟩ := regAt_inside_token h h' ha
    rw [hj]
    refine ⟨fun hc => ?_, fun hc => ?_, fun _ => .inl rfl, fun hc => ?_, fun _ => rfl⟩ <;>
      exfalso <;> simp only [ReadsWhileBusy, IsReadOnlyOffset, IsReservedOffset] at hc <;> omega
  rcases Nat.lt_or_ge off 0x2A0 with h'' | h''
  · obtain ⟨j, -, hj⟩ := regAt_inside_key h' h'' ha
    rw [hj]
    refine ⟨fun hc => ?_, fun hc => ?_, fun _ => .inl rfl, fun hc => ?_, fun _ => rfl⟩ <;>
      exfalso <;> simp only [ReadsWhileBusy, IsReadOnlyOffset, IsReservedOffset] at hc <;> omega
  · rw [regAt_past_key h'']
    refine ⟨fun _ => rfl, fun hc => ?_, fun hc => ?_, fun _ => rfl, fun hc => ?_⟩ <;>
      exfalso <;>
      simp only [ReadsWhileBusy, IsReadOnlyOffset, IsReservedOffset, IsWritableOffset] at hc <;>
      omega

/-- A read with no command pending gives the register's value and changes nothing (R67). -/
theorem busRead_idle {s : State} (h : s.busy = false) (r : Reg) : busRead s r = (readReg s r, s) := by
  simp [busRead, h]

/-- A read of a register that reads exactly while busy (R67, R69). -/
theorem busRead_exact (s : State) {r : Reg} (h : r.exactWhileBusy = true) :
    busRead s r = (readReg s r, s) := by
  simp [busRead, h]

/-- Any other read while a command is pending draws a free value (R69). -/
theorem busRead_busy {s : State} (hb : s.busy = true) {r : Reg} (h : r.exactWhileBusy = false) :
    busRead s r = s.draw := by
  simp [busRead, hb, h]

/-- A read changes at most the count of the draws. -/
theorem busRead_state (s : State) (r : Reg) : (busRead s r).2 = s ∨ (busRead s r).2 = s.draw.2 := by
  unfold busRead
  split
  · exact .inr rfl
  · exact .inl rfl

/-- A write to a read-only or reserved word does nothing (R68). -/
theorem busWrite_ignored {s : State} {r : Reg} (h : r.access = .ro ∨ r.access = .razwi) (v : Word) :
    busWrite s r v = s := by
  unfold busWrite
  rcases h with h | h <;> rw [h]

/-- A write to a writable register while a command is pending is dropped (R68). -/
theorem busWrite_busy {s : State} {r : Reg} (hb : s.busy = true)
    (h : r.access = .rw ∨ r.access = .wo) (v : Word) : busWrite s r v = s.dropWrite := by
  unfold busWrite
  rcases h with h | h <;> rw [h] <;> simp [hb]

/-- A write to a writable register with no command pending is stored (R68). -/
theorem busWrite_idle {s : State} {r : Reg} (hb : s.busy = false)
    (h : r.access = .rw ∨ r.access = .wo) (v : Word) : busWrite s r v = writeReg s v r := by
  unfold busWrite
  rcases h with h | h <;> rw [h] <;> simp [hb]

/-- What a write can do: nothing, set OVR while busy, or store while idle. -/
theorem busWrite_cases (s : State) (r : Reg) (v : Word) :
    busWrite s r v = s ∨ (s.busy = true ∧ busWrite s r v = s.dropWrite) ∨
      (s.busy = false ∧ busWrite s r v = writeReg s v r) := by
  cases hr : r.access with
  | ro => exact .inl (busWrite_ignored (.inl hr) v)
  | razwi => exact .inl (busWrite_ignored (.inr hr) v)
  | rw =>
    cases hb : s.busy with
    | false => exact .inr (.inr ⟨rfl, busWrite_idle hb (.inl hr) v⟩)
    | true => exact .inr (.inl ⟨rfl, busWrite_busy hb (.inl hr) v⟩)
  | wo =>
    cases hb : s.busy with
    | false => exact .inr (.inr ⟨rfl, busWrite_idle hb (.inr hr) v⟩)
    | true => exact .inr (.inl ⟨rfl, busWrite_busy hb (.inr hr) v⟩)

/-- What a host access can do: fault, nothing, read into a variable, or write. -/
theorem hostAccess_cases {s t : State} {a : Access} (h : hostAccess s a = .next t) :
    t = s ∨ (∃ r x, t = (busRead s r).2.bindVar x (busRead s r).1) ∨ ∃ r v, t = busWrite s r v := by
  cases a with
  | read size off x =>
    simp only [hostAccess] at h
    split at h
    · split at h
      · cases h; exact .inr (.inl ⟨_, _, rfl⟩)
      · cases h
    · cases h; exact .inl rfl
  | write size off v =>
    simp only [hostAccess] at h
    split at h
    · split at h
      · cases h; exact .inr (.inr ⟨_, _, rfl⟩)
      · cases h
    · cases h; exact .inl rfl

/-- An aligned 4-byte read inside the window. -/
theorem hostAccess_read (s : State) {off : Nat} (hl : off < 4096) (ha : off % 4 = 0) (x : Nat) :
    hostAccess s (.read .four off x) =
      .next ((busRead s (regAt off)).2.bindVar x (busRead s (regAt off)).1) := by
  have h1 : inWindow (off : Int) = true := by simp [inWindow, Config.windowBytes]; omega
  have h2 : definedAccess .four (off : Int) = true := by simp [definedAccess]; omega
  simp [hostAccess, h1, h2]

/-- An aligned 4-byte write inside the window. -/
theorem hostAccess_write (s : State) {off : Nat} (hl : off < 4096) (ha : off % 4 = 0) (v : Word) :
    hostAccess s (.write .four off v) = .next (busWrite s (regAt off) v) := by
  have h1 : inWindow (off : Int) = true := by simp [inWindow, Config.windowBytes]; omega
  have h2 : definedAccess .four (off : Int) = true := by simp [definedAccess]; omega
  simp [hostAccess, h1, h2]

/-- Every aligned offset of the window is reserved, read-only or writable (R21). -/
theorem offset_class {off : Nat} (hl : off < 4096) (ha : off % 4 = 0) :
    IsReservedOffset off ∨ IsReadOnlyOffset off ∨ IsWritableOffset off := by
  simp only [IsReservedOffset, IsReadOnlyOffset, IsWritableOffset]
  omega

/-- A 4-byte write at a writable offset while a command is pending is dropped (R68). -/
theorem hostAccess_dropped {s : State} {off : Nat} (hb : s.busy = true) (ha : off % 4 = 0)
    (hw : IsWritableOffset off) (v : Word) :
    hostAccess s (.write .four off v) = .next s.dropWrite := by
  rw [hostAccess_write s (by simp only [IsWritableOffset] at hw; omega) ha,
    busWrite_busy hb ((regAt_class ha).2.2.1 hw)]

/-- The only access that sets OVR is a 4-byte write at a writable offset, dropped (R31, R68). -/
theorem hostAccess_sets_ovr {s t : State} {a : Access} (h : hostAccess s a = .next t)
    (ho : s.ovr = false) (ht : t.ovr = true) :
    s.busy = true ∧ t = s.dropWrite ∧
      ∃ (off : Nat) (v : Word), a = .write .four off v ∧ off % 4 = 0 ∧ IsWritableOffset off := by
  cases a with
  | read size off x =>
    simp only [hostAccess] at h
    split at h
    · split at h
      · injection h with h
        subst h
        rcases busRead_state s (regAt off.toNat) with h' | h' <;> rw [h'] at ht <;>
          simp [ho] at ht
      · cases h
    · injection h with h
      rw [← h, ho] at ht
      cases ht
  | write size off v =>
    simp only [hostAccess] at h
    split at h
    · rename_i hin
      split at h
      · rename_i hdef
        simp only [inWindow, definedAccess, Config.windowBytes, Bool.and_eq_true,
          decide_eq_true_eq] at hin hdef
        obtain ⟨n, rfl⟩ := Int.eq_ofNat_of_zero_le hin.1
        have hn : n < 4096 := Int.ofNat_lt.mp (of_decide_eq_true hin.2)
        have ha : n % 4 = 0 := by omega
        injection h with h
        rw [Int.toNat_natCast] at h
        rcases offset_class hn ha with hr | hr | hr
        · rw [busWrite_ignored (by rw [(regAt_class ha).1 hr]; exact .inr rfl)] at h
          rw [← h, ho] at ht
          cases ht
        · rw [busWrite_ignored (.inl ((regAt_class ha).2.1 hr))] at h
          rw [← h, ho] at ht
          cases ht
        · rcases busWrite_cases s (regAt n) v with h' | ⟨hb, h'⟩ | ⟨-, h'⟩ <;> rw [h'] at h
          · rw [← h, ho] at ht
            cases ht
          · exact ⟨hb, h.symm, n, v, by rw [hdef.1], ha, hr⟩
          · rw [← h] at ht
            cases hreg : regAt n <;> rw [hreg] at ht <;> simp [writeReg, ho] at ht
      · cases h
    · injection h with h
      rw [← h, ho] at ht
      cases ht

/-- The window as platform addresses (R60). -/
theorem inWindow_offsetOf (base a : Nat) :
    inWindow (offsetOf base a) = true ↔ base ≤ a ∧ a < base + Config.windowBytes := by
  unfold inWindow offsetOf
  generalize Config.windowBytes = n
  simp only [Bool.and_eq_true, decide_eq_true_eq]
  omega

/-- An address inside the window is at its offset from the base, wherever the base is (R60). -/
@[simp] theorem offsetOf_base_add (base off : Nat) : offsetOf base (base + off) = off := by
  simp [offsetOf]

end Sys2Proof.Laws
end

