-- ==== Sys2Proof/Laws/Sha1.lean ====
section
/-! SUPPORT. The laws of the reference SHA-1: padding, words, the message schedule and the rounds,
each list walked once. -/

namespace Sys2Proof.Laws

open Sys2Proof.Machine

/-- `ROTL_n` is a rotation (R162). -/
theorem rotl_eq_rotateLeft {n : Nat} (h : n < 32) (x : Word) : rotl n x = x.rotateLeft n := by
  rw [rotl, BitVec.rotateLeft, Nat.mod_eq_of_lt h]
  rfl

/-- The length of a padded message (R161). -/
theorem sha1Pad_length (m : Bytes) :
    (sha1Pad m).length = m.length + 1 + sha1ZeroCount m.length + 8 := by
  simp [sha1Pad, dwordBytes, wordBytes]
  omega

/-- Word `t` of a byte string (R162). -/
theorem beWords_getD (m : Bytes) (t : Nat) (h : 4 * t + 4 ≤ m.length) :
    ((beWords m).getD t 0).toNat = fromBe ((m.drop (4 * t)).take 4) := by
  induction m using beWords.induct generalizing t with
  | case1 a b c d rest ih =>
    cases t with
    | zero => exact packWord_toNat a b c d
    | succ t =>
      simp only [List.length_cons] at h
      rw [beWords, List.getD_cons_succ, ih t (by omega), show 4 * (t + 1) = 4 * t + 4 by omega]
      rfl
  | case2 m hm =>
    match m, hm, h with
    | a :: b :: c :: d :: r, hm, _ => exact absurd rfl (hm a b c d r)
    | [], _, h => simp at h
    | [_], _, h => simp at h
    | [_, _], _, h => simp at h
    | [_, _, _], _, h => simp at h

/-- The words of a byte string, one for each four bytes. -/
theorem beWords_length (m : Bytes) : (beWords m).length = m.length / 4 := by
  induction m using beWords.induct with
  | case1 a b c d rest ih => simp only [beWords, List.length_cons, ih]; omega
  | case2 m hm =>
    match m, hm with
    | a :: b :: c :: d :: r, hm => exact absurd rfl (hm a b c d r)
    | [], _ => rfl
    | [_], _ => simp [beWords]
    | [_, _], _ => simp [beWords]
    | [_, _, _], _ => simp [beWords]

/-- The words of a byte string cut at a multiple of four bytes. -/
theorem beWords_append {m : Bytes} (h : m.length % 4 = 0) (n : Bytes) :
    beWords (m ++ n) = beWords m ++ beWords n := by
  induction m using beWords.induct with
  | case1 a b c d rest ih =>
    simp only [List.length_cons] at h
    simp only [List.cons_append, beWords, ih (by omega)]
  | case2 m hm =>
    match m, hm, h with
    | a :: b :: c :: d :: r, hm, _ => exact absurd rfl (hm a b c d r)
    | [], _, _ => rfl
    | [_], _, h => simp at h
    | [_, _], _, h => simp at h
    | [_, _, _], _, h => simp at h

/-- The schedule grows by a word each time. -/
theorem extendSchedule_length (n : Nat) (rev : List Word) :
    (extendSchedule n rev).length = n + rev.length := by
  induction n generalizing rev with
  | zero => simp [extendSchedule]
  | succ n ih => rw [extendSchedule, ih, List.length_cons]; omega

/-- The schedule, read from its first word: it starts with the words it was given, and every later
word is the recurrence of R162. -/
theorem extendSchedule_getD (n : Nat) (rev : List Word) (hr : 16 ≤ rev.length) :
    (∀ t, t < rev.length → (extendSchedule n rev).reverse.getD t 0 = rev.reverse.getD t 0) ∧
    ∀ t, rev.length ≤ t → t < rev.length + n →
      (extendSchedule n rev).reverse.getD t 0 =
        rotl 1 ((extendSchedule n rev).reverse.getD (t - 3) 0 ^^^
          (extendSchedule n rev).reverse.getD (t - 8) 0 ^^^
          (extendSchedule n rev).reverse.getD (t - 14) 0 ^^^
          (extendSchedule n rev).reverse.getD (t - 16) 0) := by
  induction n generalizing rev with
  | zero => exact ⟨fun _ _ => rfl, fun t h1 h2 => by omega⟩
  | succ n ih =>
    have hback : ∀ k, 0 < k → k ≤ 16 →
        rev.reverse.getD (rev.length - k) 0 = rev.getD (k - 1) 0 := by
      intro k hk0 hk
      rw [List.getD_eq_getElem?_getD, List.getD_eq_getElem?_getD,
        List.getElem?_reverse (by omega)]
      congr 2
      omega
    rw [extendSchedule]
    generalize hw : rotl 1 (rev.getD 2 0 ^^^ rev.getD 7 0 ^^^ rev.getD 13 0 ^^^ rev.getD 15 0) = w
    obtain ⟨hold, hnew⟩ := ih (w :: rev) (by simp only [List.length_cons]; omega)
    simp only [List.length_cons] at hold hnew
    have hkept : ∀ t, t < rev.length →
        (extendSchedule n (w :: rev)).reverse.getD t 0 = rev.reverse.getD t 0 := by
      intro t ht
      rw [hold t (by omega), List.reverse_cons, List.getD_append _ _ _ _ (by simpa using ht)]
    refine ⟨hkept, fun t h1 h2 => ?_⟩
    rcases Nat.lt_or_ge rev.length t with h | h
    · exact hnew t (by omega) (by omega)
    · obtain rfl : t = rev.length := by omega
      rw [hkept (rev.length - 3) (by omega), hkept (rev.length - 8) (by omega),
        hkept (rev.length - 14) (by omega), hkept (rev.length - 16) (by omega),
        hback 3 (by omega) (by omega), hback 8 (by omega) (by omega),
        hback 14 (by omega) (by omega), hback 16 (by omega) (by omega),
        hold rev.length (by omega), List.reverse_cons,
        List.getD_append_right _ _ _ _ (by simp)]
      simpa using hw.symm

/-- The rounds as a sequence of working variables, one round for each schedule word (R165). -/
theorem sha1Rounds_sequence (ws : List Word) (t : Nat) (h : Sha1Words) :
    ∃ v : Nat → Sha1Words, v 0 = h ∧
      (∀ k, k < ws.length → v (k + 1) = sha1Round (t + k) (ws.getD k 0) (v k)) ∧
      sha1Rounds t ws h = v ws.length := by
  induction ws generalizing t h with
  | nil => exact ⟨fun _ => h, rfl, fun k hk => absurd hk (Nat.not_lt_zero k), rfl⟩
  | cons w ws ih =>
    obtain ⟨v, h0, hstep, hend⟩ := ih (t + 1) (sha1Round t w h)
    refine ⟨fun k => match k with | 0 => h | k + 1 => v k, rfl, fun k hk => ?_, ?_⟩
    · cases k with
      | zero => simpa using h0
      | succ k =>
        simp only [List.length_cons] at hk
        simp only [List.getD_cons_succ]
        rw [hstep k (by omega), show t + 1 + k = t + (k + 1) by omega]
    · simp only [sha1Rounds, List.length_cons, hend]

end Sys2Proof.Laws
end

