-- ==== Sys2Proof/Laws/Step.lean ====
section
/-! SUPPORT. What a step can do, said once. -/

namespace Sys2Proof.Laws

open Sys2Proof.Machine

/-- With an event on the agenda, that event happens. -/
theorem step_agenda {s : State} {e : Event} {rest : List Event} (h : s.env.agenda = e :: rest) :
    step s = perform e (s.setAgenda rest) := by
  unfold step nextEvent
  rw [h]

/-- With an empty agenda and a command pending, the sequencer steps. -/
theorem step_busy {s : State} (h : s.env.agenda = []) (hb : s.busy = true) :
    step s = sequencerStep s := by
  unfold step nextEvent
  rw [h]
  simp [hb, perform]

/-- With an empty agenda and no command pending, the host goes on. -/
theorem step_host {s : State} (h : s.env.agenda = []) (hb : s.busy = false) :
    step s = hostStep s := by
  unfold step nextEvent
  rw [h]
  simp [hb, perform]

/-- The state an event happens in is the state itself but for its agenda. -/
theorem nextEvent_state (s : State) : ∃ es, (nextEvent s).2 = s.setAgenda es := by
  unfold nextEvent
  split
  · exact ⟨_, rfl⟩
  · exact ⟨s.env.agenda, rfl⟩

/-- A pending command runs, or its word is illegal. -/
theorem sequencerStep_busy {s : State} (hb : s.busy = true) :
    (∃ i, decodeCommand s.pending = .ok i ∧ sequencerStep s = exec i s) ∨
      ((∃ r, decodeCommand s.pending = .error r) ∧
        sequencerStep s = .next (s.raise false .illegalCmd)) := by
  unfold sequencerStep
  rw [if_pos hb]
  cases h : decodeCommand s.pending with
  | ok i => exact .inl ⟨i, rfl, rfl⟩
  | error r => exact .inr ⟨⟨r, rfl⟩, rfl⟩

/-- What the sequencer's next state is, with a command pending. -/
theorem sequencerStep_cases {s t : State} (hb : s.busy = true) (h : sequencerStep s = .next t) :
    (∃ r, decodeCommand s.pending = .error r ∧ t = s.raise false .illegalCmd) ∨
      ∃ i, decodeCommand s.pending = .ok i ∧ exec i s = .next t := by
  rcases sequencerStep_busy hb with ⟨i, hi, he⟩ | ⟨⟨r, hr⟩, he⟩
  · exact .inr ⟨i, hi, he ▸ h⟩
  · rw [he] at h
    injection h with h
    exact .inl ⟨r, hr, h.symm⟩

/-- With no command pending the sequencer has no step (R26). -/
theorem sequencerStep_idle {s : State} (hb : s.busy = false) : sequencerStep s = .next s := by
  unfold sequencerStep
  simp [hb]

/-- What the host's statement can do to the block: nothing, or what an access does. -/
theorem hostStmt_cases {s t : State} {st : Stmt} (h : hostStmt s st = .next t) :
    (∃ env, t = s.withEnv env) ∨ ∃ a, hostAccess s.hostAdvance a = .next t := by
  cases st with
  | label l =>
    rw [hostStmt] at h
    injection h with h
    exact .inl ⟨_, h.symm⟩
  | wr off v => exact .inr ⟨.write .four off v, h⟩
  | rd off x => exact .inr ⟨.read .four off x, h⟩
  | cmd i => exact .inr ⟨.write .four 0x008 (encode i), h⟩
  | stop =>
    rw [hostStmt] at h
    injection h with h
    exact .inl ⟨_, h.symm⟩
  | ifGoto c l =>
    rw [hostStmt] at h
    split at h
    · split at h
      · injection h with h
        exact .inl ⟨_, h.symm⟩
      · cases h
    · injection h with h
      exact .inl ⟨_, h.symm⟩

/-- What an event can do: change the surroundings only, read a register, write a register, run the
pending command, or reset the block. -/
inductive Happening (e : Event) (s t : State) : Prop where
  | surroundings (env : Env) (h : t = s.withEnv env)
  | read (env : Env) (r : Reg) (x : Nat)
      (h : t = (busRead (s.withEnv env) r).2.bindVar x (busRead (s.withEnv env) r).1)
  | write (env : Env) (r : Reg) (v : Word) (h : t = busWrite (s.withEnv env) r v)
  | command (he : e = .sequencer) (hb : s.busy = true) (h : sequencerStep s = .next t)
  | reset (he : e = .hardReset) (h : t = s.hardReset)

theorem hostAccess_happening {e : Event} {s t : State} {a : Access} {env : Env}
    (h : hostAccess (s.withEnv env) a = .next t) : Happening e s t := by
  rcases hostAccess_cases h with h | ⟨r, x, h⟩ | ⟨r, v, h⟩
  · exact .surroundings env h
  · exact .read env r x h
  · exact .write env r v h

/-- Every next state of an event is one of its happenings. -/
theorem perform_happening {e : Event} {s t : State} (h : perform e s = .next t) :
    Happening e s t := by
  cases e with
  | sequencer =>
    by_cases hb : s.busy = true
    · exact .command rfl hb h
    · have h' : sequencerStep s = .next t := h
      rw [sequencerStep_idle (by simpa using hb)] at h'
      injection h' with h'
      exact .surroundings s.env h'.symm
  | host =>
    have h' : hostStep s = .next t := h
    unfold hostStep at h'
    split at h'
    · injection h' with h'
      exact .surroundings s.env h'.symm
    · split at h'
      · rcases hostStmt_cases h' with ⟨env, rfl⟩ | ⟨a, ha⟩
        · exact .surroundings env rfl
        · exact hostAccess_happening ha
      · injection h' with h'
        exact .surroundings _ h'.symm
  | access a => exact hostAccess_happening (env := s.env) h
  | hardReset =>
    rw [perform] at h
    injection h with h
    exact .reset rfl h.symm

/-- What no event but a command's execution and the reset changes: everything a command reports.
OVR may be set, by a write dropped while a command is pending (R68). -/
theorem happening_frame {e : Event} {s t : State} (h : Happening e s t) :
    (e = .sequencer ∧ s.busy = true ∧ sequencerStep s = .next t) ∨
      (e = .hardReset ∧ t = s.hardReset) ∨
      (t.abort = s.abort ∧ t.err = s.err ∧ t.errcode = s.errcode ∧ t.valid = s.valid ∧
        t.code = s.code ∧ t.digits = s.digits ∧ t.digest = s.digest ∧ t.snum = s.snum ∧
        t.offset = s.offset ∧ t.secrem = s.secrem ∧
        (t.ovr = s.ovr ∨ (s.busy = true ∧ ∃ env, t = (s.withEnv env).dropWrite))) := by
  cases h with
  | surroundings env h => subst h; exact .inr (.inr (by simp))
  | read env r x h =>
    subst h
    rcases busRead_state (s.withEnv env) r with h | h <;> rw [h] <;> exact .inr (.inr (by simp))
  | write env r v h =>
    subst h
    rcases busWrite_cases (s.withEnv env) r v with h | ⟨hb, h⟩ | ⟨-, h⟩ <;> rw [h]
    · exact .inr (.inr (by simp))
    · exact .inr (.inr ⟨rfl, rfl, rfl, rfl, rfl, rfl, rfl, rfl, rfl, rfl, .inr ⟨hb, env, rfl⟩⟩)
    · cases r <;> exact .inr (.inr (by simp [writeReg]))
  | command he hb h => exact .inl ⟨he, hb, h⟩
  | reset he h => exact .inr (.inl ⟨he, h⟩)

/-- Every next state of a step is a happening of the event that came next. -/
theorem step_happening {s t : State} (h : step s = .next t) :
    ∃ e es, (nextEvent s) = (e, s.setAgenda es) ∧ Happening e (s.setAgenda es) t := by
  obtain ⟨es, hes⟩ := nextEvent_state s
  refine ⟨(nextEvent s).1, es, ?_, ?_⟩
  · rw [← hes]
  · rw [← hes]
    exact perform_happening h

end Sys2Proof.Laws
end

