-- ==== Sys2Proof/Laws/TimeStep.lean ====
section
/-! SUPPORT. The laws of the time-step clock and of the counter encoder, in arithmetic. -/

namespace Sys2Proof.Laws

open Sys2Proof.Machine

/-- The counter of a time (R132): the division never leaves 64 bits. -/
theorem timestep_counter_toNat (t : DWord) : (timestep t).1.toNat = t.toNat / 30 := by
  have := t.isLt
  simp only [timestep, Config.stepSeconds, BitVec.toNat_ofNat]
  omega

/-- The seconds remaining of a time (R132). -/
theorem timestep_secrem_toNat (t : DWord) : (timestep t).2.toNat = 30 - t.toNat % 30 := by
  simp only [timestep, Config.stepSeconds, BitVec.toNat_ofNat]
  omega

/-- The encoded counter is the eight bytes of CTR_HI and CTR_LO (R130). -/
theorem counterEncode_toList (n : DWord) : (counterEncode n).toList = dwordBytes n := by
  simp only [counterEncode, dwordBytes, wordBytes, hiWord, loWord, List.cons_append,
    List.nil_append]
  rw [← Vector.toList_toArray]
  simp only [List.cons.injEq]
  refine ⟨?_, ?_, ?_, ?_, ?_, ?_, ?_, ?_, trivial⟩ <;>
    (apply BitVec.eq_of_toNat_eq
     simp only [BitVec.extractLsb'_toNat, Nat.shiftRight_eq_div_pow]
     omega)

end Sys2Proof.Laws
end

