-- ==== Sys2Proof/Tests/Slice0.lean ====
section
/-! SUPPORT. Tests: decodings of words written out from the encoding table, ill-formed terms the
checks refuse, one-step vectors of spec/95_test_vectors.md, and for every statement with hypotheses
a state and operands that meet them. -/

namespace Sys2Proof.Tests

open Sys2Proof.Machine

/-! ### Small states -/

/-- The reset state with a token in TOKEN and TOKLEN. -/
def tokenState (bs : Bytes) (strict failfast : Bool) : State :=
  { State.reset with
    token := Memory.writeBytes [] 0 bs
    toklen := BitVec.ofNat 32 bs.length
    strict := strict
    failfast := failfast }

/-- The reset state with a key in KEY and KEYLEN, and a counter. -/
def keyState (bs : Bytes) (ctr : DWord) : State :=
  { State.reset with
    key := Memory.writeBytes [] 0 bs
    keylen := BitVec.ofNat 32 bs.length
    ctr := ctr }

/-- What `f` reads in the next state, if there is one. -/
def nextField {α : Type} (r : Result) (f : State → α) : Option α :=
  match r with
  | .next t => some (f t)
  | .fault _ => none
  | .refused _ => none

/-- "12345678901234567890", the key of spec/95_test_vectors.md E1. -/
def rfcKey : Bytes :=
  [0x31, 0x32, 0x33, 0x34, 0x35, 0x36, 0x37, 0x38, 0x39, 0x30] ++
    [0x31, 0x32, 0x33, 0x34, 0x35, 0x36, 0x37, 0x38, 0x39, 0x30]

/-- "jbsw y3dp ehpk 3pxp", the token of R108's example. -/
def helloToken : Bytes :=
  [0x6A, 0x62, 0x73, 0x77, 0x20, 0x79, 0x33, 0x64, 0x70, 0x20] ++
    [0x65, 0x68, 0x70, 0x6B, 0x20, 0x33, 0x70, 0x78, 0x70]

/-- "JBSWY3DPEHPK3PXP" (spec/95_test_vectors.md 2.8). -/
def helloTokenUpper : Bytes :=
  [0x4A, 0x42, 0x53, 0x57, 0x59, 0x33, 0x44, 0x50] ++
    [0x45, 0x48, 0x50, 0x4B, 0x33, 0x50, 0x58, 0x50]

/-- "ABC1" (spec/95_test_vectors.md 2.1). -/
def badToken : Bytes := [0x41, 0x42, 0x43, 0x31]

/-! ### Decoding: words written out bit by bit from R80 and R82 -/

theorem test_decode_nop :
    decodeCommand 0b00000000000000000000000000000000#32 = .ok .nop := by decide
theorem test_decode_b32dec :
    decodeCommand 0b00000000000000000000000000000001#32 = .ok .b32dec := by decide
theorem test_decode_tstep :
    decodeCommand 0b00000000000000000000000000000010#32 = .ok .tstep := by decide
theorem test_decode_hotp :
    decodeCommand 0b00000000000000000000000000000011#32 = .ok .hotp := by decide
theorem test_decode_totp :
    decodeCommand 0b00000000000000000000000000000100#32 = .ok .totp := by decide
theorem test_decode_rowcode :
    decodeCommand 0b00000000000000000000000000000101#32 = .ok .rowcode := by decide
theorem test_decode_clrerr :
    decodeCommand 0b00000000000000000000000000000110#32 = .ok .clrerr := by decide
theorem test_decode_srst :
    decodeCommand 0b00000000000000000000000000000111#32 = .ok .srst := by decide

/-- R84: the first and the last reserved opcode, and the lowest and the highest reserved bit. -/
theorem test_decode_illegal :
    decodeCommand 0x00000008 = .error (.reservedOpcode 0x08) ∧
    decodeCommand 0x000000FF = .error (.reservedOpcode 0xFF) ∧
    decodeCommand 0x00000100 = .error .reservedBits ∧
    decodeCommand 0x80000007 = .error .reservedBits ∧
    decodeTableWord 32 8 = none ∧ decodeTableWord 32 7 = some .srst := by decide

/-! ### Ill-formed terms the checks refuse -/

/-- R80, R84: reserved bits set; an opcode of 8. -/
theorem test_wf_command_word :
    commandWordWf 0x00000100 = false ∧ commandWordWf 0x00000008 = false ∧
    commandWordWf 0x00000007 = true ∧ Instr.wf .srst = true := by decide

/-- R60, R62: an offset not a multiple of 4; one past the window. -/
theorem test_wf_offset :
    offsetWf 0x00A = false ∧ offsetWf 0x1000 = false ∧ offsetWf 0xFFC = true := by decide

/-- R11: a field past bit 31; one whose bounds are crossed; one inside a condition. -/
theorem test_wf_term :
    HostTerm.wf (.field (.var 0) 32 0) = false ∧ HostTerm.wf (.field (.var 0) 3 4) = false ∧
    HostTerm.wf (.field (.lit 5) 31 31) = true ∧
    HostCond.wf (.eq (.field (.var 0) 32 0) (.lit 1)) = false ∧
    HostCond.wf (.lt (.lit 1) (.field (.var 0) 0 1)) = false ∧
    HostCond.wf (.not (.eq (.field (.var 0) 32 0) (.lit 1))) = false ∧
    HostCond.wf (.and (bitIsOne 0 0) (bitIsOne 0 32)) = false ∧
    HostCond.wf (bitIsOne 0 31) = true := by decide

/-- R87: a write and a read at bad offsets, a branch to a label that is not there, one on a bad
condition. -/
theorem test_wf_statement :
    Stmt.wf [0] (.wr 0x002 1) = false ∧ Stmt.wf [0] (.rd 0x1000 1) = false ∧
    Stmt.wf [0] (.ifGoto (bitIsOne 0 0) 1) = false ∧
    Stmt.wf [0] (.ifGoto (bitIsOne 0 32) 0) = false ∧
    Stmt.wf [0] (.ifGoto (bitIsOne 0 0) 0) = true := by decide

/-- R87: a label defined twice; a branch out of the program; a piece that is well formed. -/
theorem test_wf_program :
    programWf [.label 0, .label 0] = false ∧ programWf [.ifGoto (bitIsOne 0 0) 0] = false ∧
    programWf (runOp .hotp 0 0 ++ [.stop]) = true := by decide

/-- The canonical form refuses a list out of order, one with a byte that reads as unlisted, and one
past the end. -/
theorem test_wf_memory :
    Memory.wf [(3, 1), (2, 1)] = false ∧ Memory.wf [(2, 0)] = false ∧
    Memory.within 160 [(160, 1)] = false ∧ Memory.wf [(2, 1), (3, 1)] = true ∧
    State.reset.token.wf = true ∧ State.reset.key.wf = true := by decide

/-! ### One step of each command (expected values of spec/95_test_vectors.md) -/

/-- Section 2.9: NOP from reset. -/
theorem test_nop :
    nextField (sequencerStep (State.reset.accept 0)) statusWord = some 0x00000002 := by decide

/-- R108's example: the key, its length, and STATUS of section 2.1. -/
theorem test_b32dec :
    nextField (exec .b32dec (tokenState helloToken false true))
      (fun t => (t.keylen, t.key.readWord 0, t.key.readWord 1, t.key.readWord 2)) =
      some (10, 0x48656C6C, 0x6F21DEAD, 0xBEEF0000) := by decide +kernel

/-- Section 2.1: "MZ" with STRICT = 1 is B32_BADTAIL and sets ABORT. -/
theorem test_b32dec_badtail :
    nextField (sequencerStep ((tokenState [0x4D, 0x5A] true true).accept 1)) statusWord =
      some 0x00010616 := by decide +kernel

/-- Section 2.3: the last row. -/
theorem test_tstep_largest :
    nextField (exec .tstep { State.reset with time := 0xFFFFFFFFFFFFFFFF })
      (fun t => (t.ctr, t.secrem)) = some (0x0888888888888888, 15) := by decide

/-- Section 2.10: TSTEP is not gated by the latch. -/
theorem test_tstep_aborted :
    nextField (sequencerStep ({ State.reset with abort := true }.accept 2)) statusWord =
      some 0x00020012 := by decide

/-- Section 2.5, row 1: CODE, OFFSET, SNUM, DIGEST4, DIGITS_HI, DIGITS_LO and STATUS. -/
theorem test_hotp :
    nextField (sequencerStep ((keyState rfcKey 1).accept 3))
      (fun t => (readReg t .code, readReg t .offset, readReg t .snum, readReg t (.digest 4),
        readReg t .digitsHi, readReg t .digitsLo, statusWord t)) =
      some (0x0004616A, 11, 0x41397EEA, 0x7A2D33AB, 0x32383730, 0x38320000, 0x0003000A) := by
  decide +kernel

/-- Section 2.7: KEYLEN = 161 is LENGTH_RANGE. -/
theorem test_hotp_length :
    nextField (sequencerStep ({ State.reset with keylen := 161, valid := true }.accept 3))
      statusWord = some 0x00030306 := by decide

/-- Section 2.6: time 1111111109, a code with a leading zero. -/
theorem test_totp :
    nextField (sequencerStep ({ keyState rfcKey 0 with time := 1111111109 }.accept 4))
      (fun t => (readReg t .ctrLo, readReg t .secrem, readReg t .code, readReg t .digitsHi,
        readReg t .digitsLo, statusWord t)) =
      some (0x023523EC, 1, 0x00013F8C, 0x30383138, 0x30340000, 0x0004000A) := by
  decide +kernel

/-- Section 2.8: "JBSWY3DPEHPK3PXP" at counter 1. -/
theorem test_rowcode :
    nextField (sequencerStep (({ tokenState helloTokenUpper false true with ctr := 1 }).accept 5))
      (fun t => (t.keylen, t.code.toNat, statusWord t)) = some (10, 996554, 0x0005000A) := by
  decide +kernel

/-- Section 2.8: "ABC1" is B32_BADCHAR, sets ABORT and clears VALID. -/
theorem test_rowcode_badchar :
    nextField (sequencerStep ({ tokenState badToken false true with valid := true }.accept 5))
      statusWord = some 0x00050416 := by decide +kernel

/-- Section 2.9: CLRERR after a HOTP with OVR set keeps VALID. -/
theorem test_clrerr :
    nextField (sequencerStep
      ({ State.reset with valid := true, ovr := true, abort := true }.accept 6)) statusWord =
      some 0x0006000A := by decide

/-- Section 2.9: SRST. -/
theorem test_srst :
    nextField (sequencerStep ((tokenState badToken true false).accept 7))
      (fun t => (statusWord t, configWord t, t.token, t.toklen)) =
      some (0x00070002, 0x00000001, [], 0) := by decide

/-- Section 2.10: an illegal word with ABORT = 1 is ILLEGAL_CMD, and the latch stays. -/
theorem test_illegal_word :
    nextField (sequencerStep ({ State.reset with abort := true }.accept 0x00000105)) statusWord =
      some 0x00050116 := by decide

/-- Section 2.4: rows 1 to 4 of the truncation vectors: offset, number, code. -/
theorem test_truncation :
    let row := fun h : Vector Byte 20 => (truncOffset h, truncNumber h, truncCode h)
    row #v[0x1f, 0x86, 0x98, 0x69, 0x0e, 0x02, 0xca, 0x16, 0x61, 0x85, 0x50, 0xef, 0x7f, 0x19,
      0xda, 0x8e, 0x94, 0x5b, 0x55, 0x5a] = (10, 0x50EF7F19, 872921) ∧
    row #v[0, 0, 0, 0, 0, 0, 0, 0, 0, 0, 0, 0, 0, 0, 0, 0xFF, 0xFF, 0xFF, 0xFF, 0x0F] =
      (15, 0x7FFFFFFF, 483647) ∧
    row #v[0x80, 0, 0, 0, 0, 0, 0, 0, 0, 0, 0, 0, 0, 0, 0, 0, 0, 0, 0, 0] = (0, 0, 0) ∧
    row #v[0, 0x0F, 0x42, 0x40, 0, 0, 0, 0, 0, 0, 0, 0, 0, 0, 0, 0, 0, 0, 0, 0] =
      (0, 1000000, 0) := by decide +kernel

/-- Section 2.7: a key of 65 bytes is hashed first. -/
theorem test_hmac_long_key :
    fromBe (hmacRef (List.replicate 65 0xAA) (counterEncode 0)).toList =
      0x861119f681ce0d31da6e970af1fd8f84695cd224 := by decide +kernel

/-- Section 2.1: the 256 bytes "A" give 160 bytes, which fill the KEY buffer. -/
theorem test_b32decode_largest :
    b32decode (List.replicate 256 0x41) true = .ok (List.replicate 160 0) := by decide +kernel

/-- Section 2.11: CONFIG keeps its two bits; a reserved offset reads 0; a dropped write sets OVR and a
write to a read-only register does not. -/
theorem test_bus :
    nextField (hostAccess State.reset (.write .four 0x004 0xFFFFFFFF)) configWord =
      some 0x00000003 ∧
    (busRead State.reset (regAt 0x2A0)).1 = 0 ∧ (busRead State.reset (regAt 0x000)).1 = 0x544F5450 ∧
    nextField (hostAccess (State.reset.accept 3) (.write .four 0x01C 1)) (·.ovr) = some true ∧
    nextField (hostAccess (State.reset.accept 3) (.write .four 0x02C 1)) (·.ovr) = some false := by
  decide

/-- Section 2.1: the TOKEN words of "jbsw y3dp ehpk 3pxp". -/
theorem test_ldtok_words :
    stringWords helloToken = [0x6A627377, 0x20793364, 0x70206568, 0x706B2033, 0x70787000] := by
  decide

/-- The first instruction after reset: the fetched word's command runs (log 5). -/
theorem test_first_step_after_reset :
    nextField (step (State.reset.withFetchWord 32 7)) statusWord = some 0x00070002 ∧
    nextField (step (State.reset.withFetchWord 32 0x100)) statusWord = some 0x00000106 := by decide

/-! ### Witnesses: for each statement with hypotheses, states and operands that meet them -/

/-- A pending command from reset, with the latch, FAILFAST and OVR as given. -/
def pendingState (w : Word) (abort failfast ovr : Bool) : State :=
  { State.reset.accept w with abort := abort, failfast := failfast, ovr := ovr }

/-- The reset state with the digits "755224" (spec/95_test_vectors.md 2.5, counter 0). -/
def digitsState : State :=
  { State.reset with digits := #v[0x37, 0x35, 0x35, 0x32, 0x32, 0x34] }

/-- A state with this agenda. -/
def agendaState (es : List Event) (busy : Bool) : State :=
  { State.reset with busy := busy }.setAgenda es

theorem test_witness_DecodeEncodeAgree :
    Instr.wf .rowcode = true ∧ decodeCommand 0x00000005 = .ok .rowcode ∧
    encode .nop = encode .nop := by decide

theorem test_witness_StepRunsPendingCommand :
    (pendingState 3 false true false).busy = true ∧ Instr.wf .hotp = true ∧
    decodeCommand (pendingState 3 false true false).pending = .ok .hotp ∧
    (pendingState 3 false true false).env.agenda = [] ∧
    ((pendingState 3 false true false).setAgenda [.sequencer, .host]).env.agenda =
      .sequencer :: [.host] ∧
    (pendingState 8 false true false).busy = true ∧
    decodeCommand (pendingState 8 false true false).pending = .error (.reservedOpcode 8) ∧
    (pendingState 8 false true false).env.agenda = [] ∧
    ((pendingState 8 false true false).setAgenda [.sequencer, .host]).env.agenda =
      .sequencer :: [.host] := by decide

theorem test_witness_StepFollowsAgenda :
    (agendaState [.access (.read .four 0 0)] false).env.agenda =
      .access (.read .four 0 0) :: [] ∧
    (agendaState [.host] true).env.agenda = .host :: [] ∧
    (agendaState [.hardReset] true).env.agenda = .hardReset :: [] ∧
    (agendaState [.sequencer] false).env.agenda = .sequencer :: [] ∧
    (agendaState [.sequencer] false).busy = false ∧
    (agendaState [] true).env.agenda = [] ∧ (agendaState [] true).busy = true ∧
    (agendaState [] false).env.agenda = [] ∧ (agendaState [] false).busy = false ∧
    (agendaState [] false).env.hostStopped = true := by decide

theorem test_witness_FetchedWordRunsNext : decodeCommand 0x00000007 = .ok .srst := by decide

theorem test_witness_PendingCommandCompletes :
    (pendingState 0x100 false true false).busy = true ∧ State.reset.busy = false := by decide

theorem test_witness_OnlyTheHostFaults :
    step (agendaState [.access (.read .one 0x008 0)] true) =
      .fault (.busFault (Config.totpBase + 0x008)) := rfl

theorem test_witness_SuccessCompletionFields : ∃ t,
    (pendingState 2 false true false).busy = true ∧
    sequencerStep (pendingState 2 false true false) = .next t ∧ t.err = false :=
  ⟨_, rfl, rfl, rfl⟩

theorem test_witness_ErrorCompletionFields : ∃ t,
    (pendingState 0x100 false true false).busy = true ∧
    sequencerStep (pendingState 0x100 false true false) = .next t ∧ t.err = true :=
  ⟨_, rfl, rfl, rfl⟩

/-- A HOTP that fails, with the premises of the clauses about codes 2 and 3, and a ROWCODE with the
premises of the clause about codes 4 to 6. -/
theorem test_witness_ErrorCodesPerCommand :
    (∃ t, (pendingState 3 true true false).busy = true ∧
      sequencerStep (pendingState 3 true true false) = .next t ∧ t.err = true ∧
      decodeCommand (pendingState 3 true true false).pending = .ok .hotp) ∧
    (∃ t, sequencerStep ({ State.reset with keylen := 161 }.accept 3) = .next t ∧ t.err = true ∧
      t.errcode = 3) ∧
    (∃ t, sequencerStep ((tokenState badToken false true).accept 5) = .next t ∧ t.err = true ∧
      4 ≤ t.errcode.toNat) ∧
    (isDecodeCommand .rowcode || isCodeCommand .rowcode) = true ∧ isDecodeCommand .b32dec = true ∧
    decodeCommand (pendingState 8 false true false).pending = .error (.reservedOpcode 8) :=
  ⟨⟨_, rfl, rfl, rfl, rfl⟩, ⟨_, rfl, rfl, rfl⟩, ⟨_, rfl, rfl, by decide⟩, rfl, rfl, rfl⟩

theorem test_witness_IllegalWordCompletes :
    State.reset.busy = false ∧ (0x00000100 : Word).toNat / 256 ≠ 0 ∧
    8 ≤ (0x00000008 : Word).toNat % 256 := by decide

/-- Each clause at the boundary of its range: 257 and 161 are out of range, 256 and the tokens "1",
"A" and "MZ" are in. -/
theorem test_witness_ErrorPriority :
    ((pendingState 0x100 false true false).busy = true ∧
      decodeCommand (pendingState 0x100 false true false).pending = .error .reservedBits) ∧
    ((isDecodeCommand .hotp || isCodeCommand .hotp) = true ∧
      (pendingState 3 true true false).abort = true) ∧
    (({ State.reset with toklen := 257 } : State).abort = false ∧
      256 < ({ State.reset with toklen := 257 } : State).toklen.toNat) ∧
    (({ State.reset with keylen := 161 } : State).abort = false ∧
      160 < ({ State.reset with keylen := 161 } : State).keylen.toNat) ∧
    ((tokenState [0x31] false true).abort = false ∧
      (tokenState [0x31] false true).toklen.toNat ≤ 256 ∧
      (∃ b ∈ clean (tokenOperand (tokenState [0x31] false true)), base32Val b = none)) ∧
    ((∀ b ∈ clean (tokenOperand (tokenState [0x41] false true)), base32Val b ≠ none) ∧
      5 ≤ 5 * (clean (tokenOperand (tokenState [0x41] false true))).length % 8) ∧
    base32Vals (clean (tokenOperand (tokenState [0x4D, 0x5A] true true))) = some [12, 25] ∧
    5 * (clean (tokenOperand (tokenState [0x4D, 0x5A] true true))).length % 8 < 5 ∧
    (tokenState [0x4D, 0x5A] true true).strict = true ∧
    true ∈ tailBits (valueBits [12, 25]) := by decide

theorem test_witness_AbortSetByDecodeErrors : ∃ t,
    (nextEvent ((tokenState badToken false true).accept 5)).1 = .sequencer ∧
    step ((tokenState badToken false true).accept 5) = .next t ∧
    ((tokenState badToken false true).accept 5).abort = false ∧ t.abort = true ∧
    isDecodeCommand .rowcode = true ∧
    exec .rowcode ((tokenState badToken false true).accept 5) = .next t ∧ 4 ≤ t.errcode.toNat ∧
    (tokenState badToken false true).failfast = true :=
  ⟨_, rfl, rfl, rfl, rfl, rfl, rfl, by decide, rfl⟩

theorem test_witness_AbortGatesSecretCommands :
    (pendingState 3 true false false).abort = true ∧
    (isDecodeCommand .hotp || isCodeCommand .hotp) = true ∧
    (isDecodeCommand .tstep || isCodeCommand .tstep) = false ∧
    ∃ t, step (pendingState 3 true false false) = .next t ∧ t.abort = true ∧
      (pendingState 3 true false false).valid = false :=
  ⟨rfl, rfl, rfl, _, rfl, rfl, rfl⟩

theorem test_witness_AbortClearedBy : ∃ t,
    step (pendingState 6 true true false) = .next t ∧
    (pendingState 6 true true false).abort = true ∧ t.abort = false := ⟨_, rfl, rfl, rfl⟩

/-- A write dropped at the first and at the last writable offset; a write that comes next as an
access, as `wr` and as `cmd`; a step that sets OVR and one that clears it; a command. -/
theorem test_witness_OverrunFlag :
    (State.reset.accept 3).busy = true ∧ IsWritableOffset 0x004 ∧ IsWritableOffset 0x29C ∧
    NextIsWrite ((State.reset.accept 3).setAgenda [.access (.write .four (0x29C : Nat) 1)])
      0x29C ∧
    NextIsWrite (((State.reset.accept 3).withHostProgram [.wr 0x004 1]).setAgenda [.host]) 0x004 ∧
    NextIsWrite (((State.reset.accept 3).withHostProgram [.cmd .nop]).setAgenda [.host]) 0x008 ∧
    (∃ t, step ((State.reset.accept 3).setAgenda [.access (.write .four 0x01C 1)]) = .next t ∧
      (State.reset.accept 3).ovr = false ∧ t.ovr = true) ∧
    (∃ t, step (pendingState 6 false true true) = .next t ∧
      (pendingState 6 false true true).ovr = true ∧ t.ovr = false) ∧
    ∃ t, exec .tstep State.reset = .next t :=
  ⟨rfl, by decide, by decide, .inl ⟨_, rfl⟩, .inr ⟨rfl, rfl, .inl ⟨_, rfl⟩⟩,
    .inr ⟨rfl, rfl, .inr ⟨rfl, _, rfl⟩⟩, ⟨_, rfl, rfl, rfl⟩, ⟨_, rfl, rfl, rfl⟩, _, rfl⟩

theorem test_witness_CommandWriteSets :
    (∃ t, exec .srst State.reset = .next t) ∧
    (∃ t, (pendingState 8 false true false).busy = true ∧
      decodeCommand (pendingState 8 false true false).pending = .error (.reservedOpcode 8) ∧
      sequencerStep (pendingState 8 false true false) = .next t) ∧
    ∃ t, exec .b32dec (tokenState badToken false true) = .next t ∧ Instr.b32dec ≠ .srst :=
  ⟨⟨_, rfl⟩, ⟨_, rfl, rfl, rfl⟩, _, rfl, by decide⟩

theorem test_witness_ResetValues :
    0xFFC % 4 = 0 ∧ 0xFFC ≠ 0x000 ∧ 0xFFC ≠ 0x004 ∧ 0xFFC ≠ 0x058 ∧ 0xFFC ≠ 0x05C := by decide

theorem test_witness_NopOnlyCompletes :
    opcField 0x00000100 = 0 ∧ (0x00000100 : Word) ≠ 0 ∧ (State.reset.accept 0).busy = true := by
  decide

theorem test_witness_ClrerrClearsLatches :
    State.reset.abort = false ∧ State.reset.ovr = false ∧
    ∃ t, ((tokenState badToken false true).accept 5).busy = true ∧
      ((tokenState badToken false true).accept 5).pending = 0x00000005 ∧
      ((tokenState badToken false true).accept 5).lastop = 0x05 ∧
      ((tokenState badToken false true).accept 5).ovr = false ∧
      ((tokenState badToken false true).accept 5).failfast = true ∧
      sequencerStep ((tokenState badToken false true).accept 5) = .next t ∧ t.errcode = 4 :=
  ⟨rfl, rfl, _, rfl, rfl, rfl, rfl, rfl, rfl, rfl⟩

theorem test_witness_SrstResetsState : (State.reset.accept 3).busy = true := rfl

theorem test_witness_TstepDerivesCounter : ({ State.reset with time := 59 } : State).time = 59 :=
  rfl

/-- The largest `k` of each clause. -/
theorem test_witness_TimestepCornerCases :
    30 * 614891469123651720 < 2 ^ 64 ∧ 30 * 614891469123651719 + 29 < 2 ^ 64 := by decide

theorem test_witness_CounterEncodeRoundTrip : counterEncode 7 = counterEncode 7 := rfl

/-- Both ends of the letters, their neighbours, and the first and last byte past ASCII. -/
theorem test_witness_CleaningCommutes :
    0x61 ≤ (0x61 : Byte).toNat ∧ (0x7A : Byte).toNat ≤ 0x7A ∧
    ¬(0x61 ≤ (0x60 : Byte).toNat ∧ (0x60 : Byte).toNat ≤ 0x7A) ∧
    ¬(0x61 ≤ (0x7B : Byte).toNat ∧ (0x7B : Byte).toNat ≤ 0x7A) ∧
    0x80 ≤ (0x80 : Byte).toNat ∧ 0x80 ≤ (0xFF : Byte).toNat := by decide

/-- The first and the last byte of each range of the alphabet, the bytes just outside them, and a
byte of a cleaned token. -/
theorem test_witness_BadCharacterExactly :
    0x41 ≤ (0x41 : Byte).toNat ∧ (0x5A : Byte).toNat ≤ 0x5A ∧
    0x32 ≤ (0x32 : Byte).toNat ∧ (0x37 : Byte).toNat ≤ 0x37 ∧
    (∀ c ∈ ([0x40, 0x5B, 0x31, 0x38] : Bytes),
      ¬(0x41 ≤ c.toNat ∧ c.toNat ≤ 0x5A) ∧ ¬(0x32 ≤ c.toNat ∧ c.toNat ≤ 0x37)) ∧
    (0x5A : Byte) ∈ clean [0x7A] := by decide

theorem test_witness_BadLengthExactly :
    (∀ b ∈ clean [0x41, 0x41], base32Val b ≠ none) ∧
    5 * (clean [0x41, 0x41]).length % 8 < 5 := by decide

theorem test_witness_PackingMsbFirst :
    1 < 5 * [(12 : BitVec 5), 25, 23, 16].length / 8 ∧ 7 < 8 ∧
    8 * (5 * [(12 : BitVec 5), 25, 23, 16].length / 8) + 3 < 5 * 4 ∧ 0 % 8 = 0 ∧ 2 % 8 = 2 ∧
    4 % 8 = 4 ∧ 5 % 8 = 5 ∧ 7 % 8 = 7 := by decide

theorem test_witness_TrailingBitsPolicy :
    base32Vals (clean [0x4D, 0x5A]) = some [12, 25] ∧
    5 * [(12 : BitVec 5), 25].length % 8 < 5 ∧ true ∈ tailBits (valueBits [12, 25]) ∧
    base32Vals (clean [0x4D, 0x59]) = some [12, 24] ∧ true ∉ tailBits (valueBits [12, 24]) := by
  decide

/-- The longest key, and "mz xw6" for "foo". -/
theorem test_witness_Base32RoundTrip :
    (List.replicate 160 (0 : Byte)).length ≤ 160 ∧
    clean [0x6D, 0x7A, 0x20, 0x78, 0x57, 0x36] = b32encode [0x66, 0x6F, 0x6F] := by decide +kernel

theorem test_witness_B32decStoresKey :
    (tokenState [0x4D, 0x59] true true).key.wf = true ∧
    (tokenState [0x4D, 0x59] true true).abort = false ∧
    (tokenState [0x4D, 0x59] true true).toklen.toNat ≤ 256 ∧
    b32decode (tokenOperand (tokenState [0x4D, 0x59] true true))
      (tokenState [0x4D, 0x59] true true).strict = .ok [0x66] := by decide

/-- A TOKEN buffer that differs from the first in the byte at TOKLEN. -/
theorem test_witness_TokenBeyondLengthUnread :
    isDecodeCommand .b32dec = true ∧
    (∀ k, k < (tokenState badToken false true).toklen.toNat →
      ((tokenState badToken false true).token.writeByte 4 0xFF).readByte k =
        (tokenState badToken false true).token.readByte k) ∧
    ∃ t, exec .b32dec (tokenState badToken false true) = .next t :=
  ⟨rfl, by decide, _, rfl⟩

theorem test_witness_Sha1PaddingLeast :
    8 * ([] : Bytes).length < 2 ^ 64 ∧ (List.replicate 72 (0 : Byte)).length = 72 ∧
    65 ≤ (List.replicate 65 (0 : Byte)).length ∧ (List.replicate 119 (0 : Byte)).length ≤ 119 ∧
    120 ≤ (List.replicate 120 (0 : Byte)).length ∧
    (List.replicate 160 (0 : Byte)).length ≤ 160 := by decide

theorem test_witness_Sha1ScheduleRecurrence :
    (List.replicate 16 (0 : Word)).length = 16 ∧ 15 < 16 ∧ 16 ≤ 16 ∧ 79 < 80 ∧ 31 < 32 ∧
    4 * 0 + 4 ≤ [(1 : Byte), 2, 3, 4].length := by decide

theorem test_witness_Sha1CompressionRounds :
    19 < 20 ∧ 20 ≤ 20 ∧ 39 < 40 ∧ 40 ≤ 40 ∧ 59 < 60 ∧ 60 ≤ 60 ∧ 79 < 80 ∧
    (List.replicate 16 (0 : Word)).length = 16 := by decide

theorem test_witness_HmacBlockKey :
    (List.replicate 64 (0 : Byte)).length ≤ 64 ∧ 64 < (List.replicate 65 (0 : Byte)).length := by
  decide

theorem test_witness_FormatterRendersNumeral : (999999 : BitVec 20).toNat ≤ 999999 := by decide

/-- The largest KEYLEN in range. -/
theorem test_witness_HotpComputesCode :
    0 < (keyState rfcKey 0).keylen.toNat ∧
    ({ keyState rfcKey 0 with keylen := 160 } : State).abort = false ∧
    ({ keyState rfcKey 0 with keylen := 160 } : State).keylen.toNat ≤ 160 := by decide

theorem test_witness_TotpComputesCode :
    (keyState rfcKey 0).abort = false ∧ (keyState rfcKey 0).keylen.toNat ≤ 160 := by decide

theorem test_witness_RowcodeComputesCode :
    (tokenState [0x4D, 0x59] false true).key.wf = true ∧
    (tokenState [0x4D, 0x59] false true).abort = false ∧
    (tokenState [0x4D, 0x59] false true).toklen.toNat ≤ 256 ∧
    b32decode (tokenOperand (tokenState [0x4D, 0x59] false true))
      (tokenState [0x4D, 0x59] false true).strict = .ok [0x66] := by decide

theorem test_witness_CodeCommandsOnEveryProcessor :
    (keyState rfcKey 0).abort = false ∧ (keyState rfcKey 0).keylen.toNat ≤ 160 ∧
    (tokenState [0x4D, 0x59] false true).abort = false ∧
    (tokenState [0x4D, 0x59] false true).toklen.toNat ≤ 256 ∧
    b32decode (tokenOperand (tokenState [0x4D, 0x59] false true))
      (tokenState [0x4D, 0x59] false true).strict = .ok [0x66] ∧
    ∃ t, hotpOn hmacRef (pendingState 3 true true false) = .next t ∧
      totpOn hmacRef (pendingState 3 true true false) = .next t ∧
      rowcodeOn hmacRef (pendingState 3 true true false) = .next t ∧ t.err = true :=
  ⟨rfl, by decide, rfl, by decide, by decide, _, rfl, rfl, rfl, rfl⟩

theorem test_witness_TotpIsTstepThenHotp :
    (keyState rfcKey 0).abort = false ∧ (keyState rfcKey 0).keylen.toNat ≤ 160 := by decide

theorem test_witness_RowcodeIsB32decThenHotp : ∃ t,
    (tokenState [0x4D, 0x59] false true).key.wf = true ∧
    exec .rowcode (tokenState [0x4D, 0x59] false true) = .next t ∧ t.err = false :=
  ⟨_, by decide, rfl, rfl⟩

/-- Two states that differ in TIME, in the flag VALID and in the key byte at KEYLEN. -/
theorem test_witness_CodeDependsOnKeyAndCounter :
    let s := keyState rfcKey 1
    let s' := { keyState rfcKey 1 with
      time := 5, valid := true, key := (keyState rfcKey 1).key.writeByte 20 0xFF }
    s.abort = s'.abort ∧ s.keylen = s'.keylen ∧ s.ctr = s'.ctr ∧
    (∀ i, i < s.keylen.toNat → s.key.readByte i = s'.key.readByte i) ∧
    ∃ t t', exec .hotp s = .next t ∧ exec .hotp s' = .next t' ∧ t.err = false :=
  ⟨rfl, rfl, rfl, by decide +kernel, _, _, rfl, rfl, rfl⟩

/-- Every aligned offset of the window is in exactly one of the three classes. -/
theorem test_offset_classes : ∀ k : Fin 1024,
    let off := 4 * k.val
    (IsReservedOffset off ∨ IsReadOnlyOffset off ∨ IsWritableOffset off) ∧
    ¬(IsReservedOffset off ∧ IsReadOnlyOffset off) ∧
    ¬(IsReservedOffset off ∧ IsWritableOffset off) ∧
    ¬(IsReadOnlyOffset off ∧ IsWritableOffset off) := by decide +kernel

/-- Each clause at the ends of its range of offsets. -/
theorem test_witness_AlignedWriteRule :
    (IsReservedOffset 0x054 ∧ IsReservedOffset 0x060 ∧ IsReservedOffset 0x0FC ∧
      IsReservedOffset 0x2A0 ∧ IsReservedOffset 0xFFC) ∧
    (IsReadOnlyOffset 0x000 ∧ IsReadOnlyOffset 0x02C ∧ IsReadOnlyOffset 0x050 ∧
      IsReadOnlyOffset 0x05C) ∧
    (IsWritableOffset 0x004 ∧ IsWritableOffset 0x010 ∧ IsWritableOffset 0x01C ∧
      IsWritableOffset 0x028) ∧
    (IsWritableOffset 0x100 ∧ IsWritableOffset 0x1FC ∧ IsWritableOffset 0x200 ∧
      IsWritableOffset 0x29C) ∧
    (State.reset.accept 3).busy = true ∧ State.reset.busy = false :=
  ⟨by decide, by decide, by decide, by decide, rfl, rfl⟩

/-- A read while busy of registers that read exactly, and one of any register while idle. -/
theorem test_witness_AlignedReadRule :
    State.reset.busy = false ∧ 0xFFC < 4096 ∧ 0xFFC % 4 = 0 ∧ ReadsWhileBusy 0x000 ∧
    ReadsWhileBusy 0x00C ∧ ReadsWhileBusy 0x0FC ∧ ReadsWhileBusy 0x2A0 ∧ ¬ReadsWhileBusy 0x100 := by
  decide

theorem test_witness_ReadsLeaveBlockUnchanged :
    (∃ t, hostAccess State.reset (.read .four 0x02C 0) = .next t) ∧
    (State.reset.accept 3).busy = true ∧ ¬ReadsWhileBusy 0x008 ∧ ¬ReadsWhileBusy 0x29C :=
  ⟨⟨_, rfl⟩, rfl, by decide, by decide⟩

theorem test_witness_UndefinedAccessFaults :
    AccessSize.two ≠ .four ∧ 0xFFE % 4 ≠ 0 ∧ 0xFFE < 4096 ∧ 0xFFC % 4 = 0 ∧
    Config.totpBase + 4096 ≤ Config.totpBase + 4096 :=
  ⟨by decide, by decide, by decide, by decide, Nat.le_refl _⟩

theorem test_witness_BufferWordPacking :
    State.reset.busy = false ∧ State.reset.token.wf = true ∧ State.reset.key.wf = true := by decide

theorem test_witness_BusyWriteDoesNotDisturb : ∃ t u,
    (pendingState 2 false true false).busy = true ∧
    hostAccess (pendingState 2 false true false) (.write .four (0x014 : Nat) 7) = .next u ∧
    sequencerStep (pendingState 2 false true false) = .next t := ⟨_, _, rfl, rfl, rfl⟩

theorem test_witness_HostCommandIsAcceptance :
    (State.reset.withHostProgram [.cmd .hotp]).env.hostStopped = false ∧
    (State.reset.withHostProgram [.cmd .hotp]).env.program[0]? = some (.cmd .hotp) ∧
    (State.reset.withHostProgram [.cmd .hotp]).busy = false ∧
    ((State.reset.accept 2).withHostProgram [.cmd .hotp]).busy = true := by decide

theorem test_witness_LdtokLoadsToken :
    State.reset.busy = false ∧ State.reset.token.wf = true ∧
    (List.replicate 256 (0x41 : Byte)).length ≤ 256 := by decide +kernel

/-- A token and a pending ROWCODE, after a LENGTH_RANGE error. -/
theorem test_witness_StepKeepsBlockInv : ∃ t,
    BlockInv { (tokenState badToken false true).accept 5 with
      secrem := 30, errcode := 3, err := true } ∧
    step { (tokenState badToken false true).accept 5 with
      secrem := 30, errcode := 3, err := true } = .next t :=
  ⟨_, ⟨by decide, by decide, by decide, fun h => by cases h⟩, rfl⟩

/-- ASCII digits before a hardware reset and before a pending SRST, and a run. -/
theorem test_witness_ReachableStatesMeetR53 :
    (∀ b ∈ digitsState.digits.toList, IsAsciiDigit b) ∧
    (∃ t, step (digitsState.setAgenda [.hardReset]) = .next t ∧
      ∃ b ∈ t.digits.toList, ¬IsAsciiDigit b) ∧
    (∃ t, step (digitsState.accept 0x00000007) = .next t ∧
      ∃ b ∈ t.digits.toList, ¬IsAsciiDigit b) ∧
    ∃ t, Host.Core.run Sys2Proof.core 1 (State.reset.withEnv
      { Env.reset with agenda := [.access (.write .four 0x008 2)] }) = .next t ∧ t.busy = true :=
  ⟨by decide, ⟨_, rfl, by decide⟩, ⟨_, rfl, by decide⟩, _, rfl, rfl⟩

end Sys2Proof.Tests
end

/-! PROOFS. The statements about the block's state (spec/10_state.md): its invariants, what a command
may write, OVR, the layout of STATUS and of the buffers' words, and which command a step runs. -/

namespace Sys2Proof.Proofs.BlockState

open Sys2Proof.Machine Sys2Proof.Laws

/-! ### The invariants through the named updates of the state -/

section Invariants

variable {s : State}

/-- The invariants speak of the block alone, not of what surrounds it. -/
theorem blockInv_withEnv (env : Env) : BlockInv (s.withEnv env) ↔ BlockInv s := Iff.rfl

theorem blockInv_setAgenda (es : List Event) : BlockInv (s.setAgenda es) ↔ BlockInv s := Iff.rfl

/-- No invariant constrains OVR. -/
theorem blockInv_dropWrite : BlockInv s.dropWrite ↔ BlockInv s := Iff.rfl

/-- No invariant constrains ABORT or OVR. -/
theorem blockInv_clearLatches : BlockInv s.clearLatches ↔ BlockInv s := Iff.rfl

theorem blockInv_reset : BlockInv State.reset :=
  ⟨by decide, by decide, by decide, fun h => absurd h (by decide)⟩

theorem blockInv_hardReset : BlockInv s.hardReset := (blockInv_withEnv s.env).2 blockInv_reset

/-- DONE = 1 after SRST agrees with BUSY = 0, and LASTOP is free while BUSY = 0. -/
theorem blockInv_softReset : BlockInv s.softReset :=
  ⟨blockInv_reset.1, blockInv_reset.2.1, by simp [StatusOk, State.reset],
    fun h => absurd h (by simp [State.reset])⟩

/-- The acceptance of a command sets BUSY, DONE and LASTOP together (R24). -/
theorem blockInv_accept (h : BlockInv s) (w : Word) : BlockInv (s.accept w) := by
  obtain ⟨hbuf, hran, ⟨herr, -, -⟩, hres⟩ := h
  exact ⟨hbuf, hran, ⟨herr, fun _ => rfl, fun _ => rfl⟩, hres⟩

/-- A success completion clears ERR with ERRCODE, and BUSY (R252). -/
theorem blockInv_complete (h : BlockInv s) : BlockInv s.complete := by
  obtain ⟨hbuf, ⟨hsec, hcode, -, hdig⟩, -, hres⟩ := h
  exact ⟨hbuf, ⟨hsec, hcode, by simp, hdig⟩, by simp [StatusOk], hres⟩

/-- An error completion sets ERR with a code from 1 to 6, and may only clear VALID (R251, R253). -/
theorem blockInv_raise (h : BlockInv s) (isCode : Bool) (e : CmdError) :
    BlockInv (s.raise isCode e) := by
  obtain ⟨hbuf, ⟨hsec, hcode, -, hdig⟩, -, hres⟩ := h
  obtain ⟨hne, hle, -⟩ := errorCode_range e
  refine ⟨hbuf, ⟨hsec, hcode, hle, hdig⟩, by simpa [StatusOk] using hne, fun hv => ?_⟩
  cases isCode with
  | true => exact absurd hv (by simp)
  | false => exact hres hv

/-- The seconds remaining of a time are at most 30 (R35). -/
theorem blockInv_storeTimestep (h : BlockInv s) (t : DWord) :
    BlockInv (s.storeTimestep (timestep t)) := by
  obtain ⟨hbuf, ⟨-, hcode, hec, hdig⟩, hsta, hres⟩ := h
  have hsec : (timestep t).2.toNat ≤ 30 := by rw [timestep_secrem_toNat]; omega
  exact ⟨hbuf, ⟨hsec, hcode, hec, hdig⟩, hsta, hres⟩

/-- A key that fits the KEY buffer keeps it canonical and inside its bound. -/
theorem blockInv_storeKey (h : BlockInv s) {r : Bytes} (hr : r.length ≤ Config.keyMax) :
    BlockInv (s.storeKey r) := by
  obtain ⟨⟨htok, htokw, hkey, hkeyw⟩, hran, hsta, hres⟩ := h
  exact ⟨⟨htok, htokw, storeKey_wf hkey hkeyw hr⟩, hran, hsta, hres⟩

end Invariants

/-! ### The results of a digest -/

/-- SNUM of a digest is the number of its window (R191). -/
theorem truncNumber_toNat (h : Vector Byte 20) :
    (truncNumber h).toNat = windowNumber h (truncOffset h).toNat := by
  simp only [truncNumber, windowBytes_toNat, windowByte_eq_getD, windowNumber]
  rfl

/-- CODE of a digest is below 1000000 (R192). -/
theorem truncCode_lt (h : Vector Byte 20) : (truncCode h).toNat < 1000000 := by
  rw [truncCode_toNat]
  exact Nat.mod_lt _ (by decide)

theorem isAsciiDigit_asciiDigit (c : BitVec 20) (k : Nat) : IsAsciiDigit (asciiDigit c k) := by
  have := Nat.mod_lt (c.toNat / 10 ^ k) (show 10 > 0 by decide)
  simp only [IsAsciiDigit, asciiDigit_toNat]
  omega

/-- Every byte the formatter makes is an ASCII digit (R193). -/
theorem isAsciiDigit_of_mem_format6 {c : BitVec 20} {b : Byte} (hb : b ∈ (format6 c).toList) :
    IsAsciiDigit b := by
  simp only [format6_toList, List.mem_cons, List.not_mem_nil, or_false] at hb
  rcases hb with rfl | rfl | rfl | rfl | rfl | rfl <;> exact isAsciiDigit_asciiDigit c _

/-- The formatter's numeral is the code, for every code of six digits (R193). -/
theorem decimalValue_format6 {c : BitVec 20} (hc : c.toNat < 1000000) :
    decimalValue (format6 c).toList = c.toNat := by
  simp only [format6_toList, decimalValue, List.foldl_cons, List.foldl_nil, asciiDigit_toNat]
  omega

/-- The result registers written from a digest are those of the digest (R194). -/
theorem resultsOf_storeResults (s : State) (h : Vector Byte 20) :
    ResultsOf h (s.storeResults (resultOfDigest h)) :=
  ⟨rfl, truncOffset_toNat h, truncNumber_toNat h, truncCode_toNat h,
    fun _ hb => isAsciiDigit_of_mem_format6 hb, decimalValue_format6 (truncCode_lt h), rfl⟩

theorem blockInv_storeResults {s : State} (hs : BlockInv s) (H : HmacProcessor) (key : Bytes)
    (c : DWord) : BlockInv (s.storeResults (genCode H key c)) := by
  obtain ⟨hbuf, ⟨hsec, -, hec, -⟩, hsta, -⟩ := hs
  exact ⟨hbuf, ⟨hsec, truncCode_lt _, hec, .inr fun _ hb => isAsciiDigit_of_mem_format6 hb⟩, hsta,
    fun _ => ⟨resultsOf_storeResults s _, rfl⟩⟩

/-! ### The invariants through commands, accesses and steps -/

theorem exec_keeps_blockInv {i : Instr} {s t : State} (hs : BlockInv s)
    (h : exec i s = .next t) : BlockInv t := by
  cases exec_ending h with
  | failed e _ ht => exact ht ▸ blockInv_raise hs _ e
  | key r _ _ hr ht => exact ht ▸ blockInv_complete (blockInv_storeKey hs hr)
  | time _ ht => exact ht ▸ blockInv_complete (blockInv_storeTimestep hs _)
  | code key _ ht => exact ht ▸ blockInv_complete (blockInv_storeResults hs _ _ _)
  | timeCode key _ ht =>
    exact ht ▸ blockInv_complete (blockInv_storeResults (blockInv_storeTimestep hs _) _ _ _)
  | keyCode r _ _ hr ht =>
    exact ht ▸ blockInv_complete (blockInv_storeResults (blockInv_storeKey hs hr) _ _ _)
  | nothing _ ht => exact ht ▸ blockInv_complete hs
  | cleared _ ht => exact ht ▸ blockInv_complete (blockInv_clearLatches.2 hs)
  | reset _ ht => exact ht ▸ blockInv_softReset

theorem sequencerStep_keeps_blockInv {s t : State} (hs : BlockInv s) (hb : s.busy = true)
    (h : sequencerStep s = .next t) : BlockInv t := by
  rcases sequencerStep_cases hb h with ⟨_, _, rfl⟩ | ⟨i, _, he⟩
  · exact blockInv_raise hs _ _
  · exact exec_keeps_blockInv hs he

/-- A stored register write keeps the invariants: of the registers a write reaches, only CMD and the
buffers stand in them. -/
theorem writeReg_keeps_blockInv {s : State} (hs : BlockInv s) (v : Word) (r : Reg) :
    BlockInv (writeReg s v r) := by
  obtain ⟨⟨htok, htokw, hkey, hkeyw⟩, hrest⟩ := hs
  cases r with
  | cmd => exact blockInv_accept ⟨⟨htok, htokw, hkey, hkeyw⟩, hrest⟩ v
  | token j =>
    exact ⟨⟨writeWord_wf htok j v,
      writeWord_within htokw (show 4 * j.val + 4 ≤ 256 by omega) v, hkey, hkeyw⟩, hrest⟩
  | key j =>
    exact ⟨⟨htok, htokw, writeWord_wf hkey j v,
      writeWord_within hkeyw (show 4 * j.val + 4 ≤ 160 by omega) v⟩, hrest⟩
  | _ => exact ⟨⟨htok, htokw, hkey, hkeyw⟩, hrest⟩

theorem busRead_keeps_blockInv {s : State} (hs : BlockInv s) (r : Reg) (x : Nat) (v : Word) :
    BlockInv ((busRead s r).2.bindVar x v) := by
  rcases busRead_state s r with h | h <;> rw [h] <;> exact hs

theorem busWrite_keeps_blockInv {s : State} (hs : BlockInv s) (r : Reg) (v : Word) :
    BlockInv (busWrite s r v) := by
  rcases busWrite_cases s r v with h | ⟨-, h⟩ | ⟨-, h⟩ <;> rw [h]
  · exact hs
  · exact blockInv_dropWrite.2 hs
  · exact writeReg_keeps_blockInv hs v r

theorem happening_keeps_blockInv {e : Event} {s t : State} (hs : BlockInv s)
    (h : Happening e s t) : BlockInv t := by
  cases h with
  | surroundings env h => exact h ▸ (blockInv_withEnv env).2 hs
  | read env r x h => exact h ▸ busRead_keeps_blockInv ((blockInv_withEnv env).2 hs) r x _
  | write env r v h => exact h ▸ busWrite_keeps_blockInv ((blockInv_withEnv env).2 hs) r v
  | command _ hb h => exact sequencerStep_keeps_blockInv hs hb h
  | reset _ h => exact h ▸ blockInv_hardReset

/-- Settles O58: a step is one of the happenings, and each keeps the invariants. -/
theorem stepKeepsBlockInv : Obligations.StepKeepsBlockInv := by
  intro s t hs h
  obtain ⟨_, es, -, hh⟩ := step_happening h
  exact happening_keeps_blockInv ((blockInv_setAgenda es).2 hs) hh

/-! ### Runs -/

/-- A run of one step more that meets no fault is a step and a run from where it leads. -/
theorem run_succ_cases {M : Host.Core} {k : Nat} {s t : M.State} (h : M.run (k + 1) s = .next t) :
    ∃ s', M.step s = .next s' ∧ M.run k s' = .next t := by
  rw [Host.Core.run] at h
  cases hk : M.step s with
  | next s' => rw [hk] at h; exact ⟨s', rfl, h⟩
  | fault r => rw [hk] at h; cases h
  | refused r => rw [hk] at h; cases h

/-- What every step keeps holds at the end of every run it holds at the start of. -/
theorem run_induction {M : Host.Core} {P : M.State → Prop}
    (hstep : ∀ s t, P s → M.step s = .next t → P t) {k : Nat} {s t : M.State} (hs : P s)
    (h : M.run k s = .next t) : P t := by
  induction k generalizing s with
  | zero => cases h; exact hs
  | succ k ih =>
    obtain ⟨s', hs', hk⟩ := run_succ_cases h
    exact ih (hstep s s' hs hs') hk

/-- Every state reached from reset meets the invariants, in whatever surroundings. -/
theorem reachable_blockInv {env : Env} {k : Nat} {t : State}
    (h : Host.Core.run Sys2Proof.core k (State.reset.withEnv env) = .next t) : BlockInv t :=
  run_induction (M := Sys2Proof.core) stepKeepsBlockInv ((blockInv_withEnv env).2 blockInv_reset) h

/-- No command but SRST changes DIGITS otherwise than to a formatter's output. -/
theorem exec_digits {i : Instr} {s t : State} (h : exec i s = .next t) :
    t.digits = s.digits ∨ (∃ c, t.digits = format6 c) ∨ i = .srst := by
  cases exec_ending h with
  | failed _ _ ht => exact .inl (ht ▸ rfl)
  | key _ _ _ _ ht => exact .inl (ht ▸ rfl)
  | time _ ht => exact .inl (ht ▸ rfl)
  | code _ _ ht => subst ht; exact .inr (.inl ⟨_, rfl⟩)
  | timeCode _ _ ht => subst ht; exact .inr (.inl ⟨_, rfl⟩)
  | keyCode _ _ _ _ ht => subst ht; exact .inr (.inl ⟨_, rfl⟩)
  | nothing _ ht => exact .inl (ht ▸ rfl)
  | cleared _ ht => exact .inl (ht ▸ rfl)
  | reset hi _ => exact .inr (.inr hi)

/-- DIGITS after a step: kept, a formatter's output, or what one of the two resets leaves. -/
theorem step_digits {s t : State} (h : step s = .next t) :
    t.digits = s.digits ∨ (∃ c, t.digits = format6 c) ∨ (nextEvent s).1 = .hardReset ∨
      ((nextEvent s).1 = .sequencer ∧ s.busy = true ∧ decodeCommand s.pending = .ok .srst) := by
  obtain ⟨e, es, hev, hh⟩ := step_happening h
  rw [hev]
  rcases happening_frame hh with ⟨he, hb, hseq⟩ | ⟨he, -⟩ | ⟨-, -, -, -, -, hd, -⟩
  · rcases sequencerStep_cases hb hseq with ⟨_, _, rfl⟩ | ⟨i, hi, hx⟩
    · exact .inl rfl
    · rcases exec_digits hx with hd | hd | rfl
      · exact .inl hd
      · exact .inr (.inl hd)
      · exact .inr (.inr (.inr ⟨he, hb, hi⟩))
  · exact .inr (.inr (.inl he))
  · exact .inl hd

/-- Settles O60: R53's list is part of the invariants every run keeps from reset, and a step's
DIGITS are ASCII when they were, but for the two resets. -/
theorem reachableStatesMeetR53 : Obligations.ReachableStatesMeetR53 := by
  refine ⟨fun s t h hs ⟨b, hb, hnot⟩ => ?_, fun env k t h => ?_⟩
  · rcases step_digits h with hd | ⟨c, hd⟩ | hreset
    · exact absurd (hs b (hd ▸ hb)) hnot
    · exact absurd (isAsciiDigit_of_mem_format6 (hd ▸ hb)) hnot
    · exact hreset
  · obtain ⟨-, ⟨hsec, hcode, -, hdig⟩, ⟨herr, hbusy, -⟩, hres⟩ := reachable_blockInv h
    refine ⟨by omega, hcode, t.offset.isLt, t.snum.isLt, fun b hb => ?_, herr, hbusy, fun hv => ?_⟩
    · exact hdig.imp (fun hz => hz b hb) (fun ha => ha b hb)
    · obtain ⟨⟨-, hoff, -, hcd, -⟩, hfmt⟩ := hres hv
      exact ⟨hcd, hoff, hfmt⟩

/-! ### How a command completes, and what it writes -/

theorem complete_succeeded (s : State) : Succeeded s.complete := ⟨rfl, rfl, rfl, rfl⟩

/-- Every command completes, with success or with an error. -/
theorem exec_completes {i : Instr} {s t : State} (h : exec i s = .next t) :
    Succeeded t ∨ (FailedWith t t.errcode ∧ t.errcode ≠ 0) := by
  cases exec_ending h with
  | failed e _ ht => subst ht; exact .inr ⟨⟨rfl, rfl, rfl, rfl⟩, (errorCode_range e).1⟩
  | key _ _ _ _ ht => exact .inl (ht ▸ complete_succeeded _)
  | time _ ht => exact .inl (ht ▸ complete_succeeded _)
  | code _ _ ht => exact .inl (ht ▸ complete_succeeded _)
  | timeCode _ _ ht => exact .inl (ht ▸ complete_succeeded _)
  | keyCode _ _ _ _ ht => exact .inl (ht ▸ complete_succeeded _)
  | nothing _ ht => exact .inl (ht ▸ complete_succeeded _)
  | cleared _ ht => exact .inl (ht ▸ complete_succeeded _)
  | reset _ ht => subst ht; exact .inl ⟨rfl, rfl, rfl, rfl⟩

/-- Settles O7: a legal word runs its command, which completes; an illegal one is raised. -/
theorem pendingCommandCompletes : Obligations.PendingCommandCompletes := by
  refine ⟨fun s hb => ?_, fun s hb => sequencerStep_idle hb⟩
  rcases sequencerStep_busy hb with ⟨i, -, he⟩ | ⟨-, he⟩
  · obtain ⟨t, ht⟩ := exec_next i s
    exact ⟨t, he.trans ht, exec_completes ht⟩
  · exact ⟨_, he, .inr ⟨⟨rfl, rfl, rfl, rfl⟩, by simp [errorCode]⟩⟩

/-- The checks of R255 report the codes 2 and 3 only. -/
theorem secretError_code_lt {s : State} {len : Word} {max : Nat} {e : CmdError}
    (h : s.secretError len max = some e) : (errorCode e).toNat < 4 := by
  rcases secretError_eq_some.1 h with ⟨-, rfl⟩ | ⟨-, -, rfl⟩ <;> decide

/-- Only the commands that decode a token end with a DecodeError's code (R254). -/
theorem exec_decodeCode {i : Instr} {s t : State} (h : exec i s = .next t)
    (hc : 4 ≤ t.errcode.toNat) : isDecodeCommand i = true := by
  cases i with
  | b32dec => rfl
  | rowcode => rfl
  | hotp =>
    rcases hotpOn_cases hmacProcessor s with ⟨e, hs, he⟩ | ⟨-, he⟩ <;> cases he.symm.trans h
    · exact absurd hc (Nat.not_le.2 (secretError_code_lt hs))
    · exact absurd hc (by simp)
  | totp =>
    rcases totpOn_cases hmacProcessor s with ⟨e, hs, he⟩ | ⟨-, he⟩ <;> cases he.symm.trans h
    · exact absurd hc (Nat.not_le.2 (secretError_code_lt hs))
    · exact absurd hc (by simp)
  | nop => cases h; exact absurd hc (by simp)
  | tstep => cases h; exact absurd hc (by simp)
  | clrerr => cases h; exact absurd hc (by simp)
  | srst => cases h; exact absurd hc (by simp [State.reset])

/-- ABORT after an error completion: kept, or set by a DecodeError under FAILFAST = 1 (R256). -/
theorem raise_abort_cases (s : State) (isCode : Bool) (e : CmdError) :
    (s.raise isCode e).abort = s.abort ∨
      (4 ≤ (errorCode e).toNat ∧ s.failfast = true ∧ (s.raise isCode e).abort = true) := by
  rw [raise_abort]
  split
  · rename_i hset
    obtain ⟨hset, hff⟩ := (Bool.and_eq_true _ _).mp hset
    exact .inr ⟨(errorCode_range e).2.2.1 hset, hff, rfl⟩
  · exact .inl rfl

/-- Settles O18: each of a command's endings writes what R52 lists for it. -/
theorem commandWriteSets : Obligations.CommandWriteSets := by
  refine ⟨fun s t h => ?_, fun s t r hb hr h => ?_, fun s t i h hi => ?_⟩
  · rw [exec_srst] at h
    cases h
    exact ⟨rfl, rfl⟩
  · rcases sequencerStep_cases hb h with ⟨_, _, rfl⟩ | ⟨i, hi, -⟩
    · rfl
    · rw [hr] at hi; cases hi
  · have hdecode := exec_decodeCode h
    cases exec_ending h with
    | failed e _ ht =>
      subst ht
      have hovr : s.ovr = if i = .clrerr then false else s.ovr := by
        split
        · subst i; cases h
        · rfl
      refine ⟨⟨rfl, rfl, rfl, rfl, rfl, rfl, rfl, rfl⟩, .inl ⟨rfl, rfl⟩, .inl ⟨rfl, rfl⟩,
        .inl ⟨rfl, rfl, rfl, rfl, rfl⟩, rfl, hovr, ?_⟩
      exact (raise_abort_cases s _ e).imp_right fun ⟨hc, hff, ha⟩ =>
        .inr ⟨hdecode hc, rfl, hc, hff, ha⟩
    | key _ hi _ _ ht => subst ht hi; simp [isCodeCommand, isDecodeCommand]
    | time hi ht => subst ht hi; simp [isCodeCommand, isDecodeCommand]
    | code _ hi ht => subst ht hi; simp [isCodeCommand]
    | timeCode _ hi ht => subst ht hi; simp [isCodeCommand]
    | keyCode _ hi _ _ ht => subst ht hi; simp [isCodeCommand, isDecodeCommand]
    | nothing hi ht => subst ht hi; simp [isCodeCommand]
    | cleared hi ht => subst ht hi; simp [isCodeCommand]
    | reset hsrst _ => exact absurd hsrst hi

/-! ### Commands in two states that read alike -/

/-- A check that fails before the token is decoded is raised (R255). -/
theorem exec_tokenCheckError {s : State} {i : Instr} {e : CmdError} (hd : isDecodeCommand i = true)
    (hs : s.secretError s.toklen Config.tokMax = some e) :
    exec i s = .next (s.raise (isCodeCommand i) e) := by
  cases i with
  | b32dec => simp only [exec, execB32dec, hs]; rfl
  | rowcode => simp only [exec, execRowcode, rowcodeOn, hs]; rfl
  | _ => cases hd

theorem exec_b32dec_decoded {s : State} {r : Bytes}
    (hs : s.secretError s.toklen Config.tokMax = none)
    (h : b32decode (tokenOperand s) s.strict = .ok r) :
    exec .b32dec s = .next (s.storeKey r).complete := by
  simp only [exec, execB32dec, hs, h]

theorem exec_rowcode_decoded {s : State} {r : Bytes}
    (hs : s.secretError s.toklen Config.tokMax = none)
    (h : b32decode (tokenOperand s) s.strict = .ok r) :
    exec .rowcode s =
      .next ((s.storeKey r).storeResults (genCode hmacProcessor r s.ctr)).complete := by
  simp only [exec, execRowcode, rowcodeOn, hs, h]

/-- B32DEC and ROWCODE end alike in two states with the same checks, token, STRICT and COUNTER: with
the same error, or with the same key and code stored. -/
theorem exec_decode_alike {s s' : State} {i : Instr} (hd : isDecodeCommand i = true)
    (hsec : s'.secretError s'.toklen Config.tokMax = s.secretError s.toklen Config.tokMax)
    (htok : tokenOperand s' = tokenOperand s) (hstrict : s'.strict = s.strict)
    (hctr : s'.ctr = s.ctr) :
    (∃ e, exec i s = .next (s.raise (isCodeCommand i) e) ∧
        exec i s' = .next (s'.raise (isCodeCommand i) e)) ∨
      (∃ r, exec i s = .next (s.storeKey r).complete ∧
        exec i s' = .next (s'.storeKey r).complete) ∨
      ∃ g r, exec i s = .next ((s.storeKey r).storeResults g).complete ∧
        exec i s' = .next ((s'.storeKey r).storeResults g).complete := by
  cases hs : s.secretError s.toklen Config.tokMax with
  | some e =>
    exact .inl ⟨e, exec_tokenCheckError hd hs, exec_tokenCheckError hd (hsec.trans hs)⟩
  | none =>
    have hs' := hsec.trans hs
    have hdec' : b32decode (tokenOperand s') s'.strict = b32decode (tokenOperand s) s.strict := by
      rw [htok, hstrict]
    cases hdec : b32decode (tokenOperand s) s.strict with
    | error e =>
      exact .inl ⟨_, exec_decodeError hd hs hdec, exec_decodeError hd hs' (hdec'.trans hdec)⟩
    | ok r =>
      cases i with
      | b32dec =>
        exact .inr (.inl ⟨r, exec_b32dec_decoded hs hdec,
          exec_b32dec_decoded hs' (hdec'.trans hdec)⟩)
      | rowcode =>
        exact .inr (.inr ⟨_, r, exec_rowcode_decoded hs hdec,
          hctr ▸ exec_rowcode_decoded hs' (hdec'.trans hdec)⟩)
      | _ => cases hd

/-- HOTP ends alike in two states with the same checks, key and COUNTER. -/
theorem exec_hotp_alike {s s' : State}
    (hsec : s'.secretError s'.keylen Config.keyMax = s.secretError s.keylen Config.keyMax)
    (hkey : keyOperand s' = keyOperand s) (hctr : s'.ctr = s.ctr) :
    (∃ e, exec .hotp s = .next (s.raise true e) ∧ exec .hotp s' = .next (s'.raise true e)) ∨
      ∃ g, exec .hotp s = .next (s.storeResults g).complete ∧
        exec .hotp s' = .next (s'.storeResults g).complete := by
  simp only [exec, execHotp, hotpOn, hsec, hkey, hctr]
  cases s.secretError s.keylen Config.keyMax with
  | some e => exact .inl ⟨e, rfl, rfl⟩
  | none => exact .inr ⟨_, rfl, rfl⟩

/-- TOTP ends alike in two states with the same checks, key and TIME. -/
theorem exec_totp_alike {s s' : State}
    (hsec : s'.secretError s'.keylen Config.keyMax = s.secretError s.keylen Config.keyMax)
    (hkey : keyOperand s' = keyOperand s) (htime : s'.time = s.time) :
    (∃ e, exec .totp s = .next (s.raise true e) ∧ exec .totp s' = .next (s'.raise true e)) ∨
      ∃ r g, exec .totp s = .next ((s.storeTimestep r).storeResults g).complete ∧
        exec .totp s' = .next ((s'.storeTimestep r).storeResults g).complete := by
  simp only [exec, execTotp, totpOn, hsec, hkey, htime]
  cases s.secretError s.keylen Config.keyMax with
  | some e => exact .inl ⟨e, rfl, rfl⟩
  | none => exact .inr ⟨_, _, rfl, rfl⟩

/-! ### The token operand -/

/-- Two buffers that agree below `n` have the same first `n` bytes. -/
theorem firstBytes_congr {m m' : Memory} {n : Nat}
    (h : ∀ k, k < n → m'.readByte k = m.readByte k) : m'.firstBytes n = m.firstBytes n :=
  List.map_congr_left fun k hk => h k (List.mem_range.1 hk)

/-- Settles O34: the token operand is all a command reads of TOKEN. -/
theorem tokenBeyondLengthUnread : Obligations.TokenBeyondLengthUnread := by
  refine ⟨fun s => ⟨firstBytes_length _ _, fun i hi => ?_⟩, fun s t m i hd hm h => ?_⟩
  · have hi' : i < (tokenOperand s).length := by rwa [tokenOperand, firstBytes_length]
    rw [List.getD_eq_getElem _ _ hi']
    exact firstBytes_getElem _ _ hi'
  · have htok : tokenOperand { s with token := m } = tokenOperand s := firstBytes_congr hm
    rcases exec_decode_alike (s := s) (s' := { s with token := m }) hd rfl htok rfl rfl with
      ⟨e, hs, hs'⟩ | ⟨r, hs, hs'⟩ | ⟨g, r, hs, hs'⟩ <;> cases hs.symm.trans h <;> exact hs'

/-! ### OVR -/

/-- A command neither reads OVR nor ends otherwise for it (R31). -/
theorem exec_withOvr {s t : State} {i : Instr} (b : Bool) (h : exec i s = .next t) :
    ∃ u, exec i { s with ovr := b } = .next u ∧ { u with ovr := t.ovr } = t := by
  have decodeCase (hd : isDecodeCommand i = true) :
      ∃ u, exec i { s with ovr := b } = .next u ∧ { u with ovr := t.ovr } = t := by
    rcases exec_decode_alike (s := s) (s' := { s with ovr := b }) hd rfl rfl rfl rfl with
      ⟨e, hs, hs'⟩ | ⟨r, hs, hs'⟩ | ⟨g, r, hs, hs'⟩ <;> cases hs.symm.trans h <;>
      exact ⟨_, hs', rfl⟩
  cases i with
  | b32dec => exact decodeCase rfl
  | rowcode => exact decodeCase rfl
  | hotp =>
    rcases exec_hotp_alike (s := s) (s' := { s with ovr := b }) rfl rfl rfl with
      ⟨e, hs, hs'⟩ | ⟨g, hs, hs'⟩ <;> cases hs.symm.trans h <;> exact ⟨_, hs', rfl⟩
  | totp =>
    rcases exec_totp_alike (s := s) (s' := { s with ovr := b }) rfl rfl rfl with
      ⟨e, hs, hs'⟩ | ⟨r, g, hs, hs'⟩ <;> cases hs.symm.trans h <;> exact ⟨_, hs', rfl⟩
  | nop => cases h; exact ⟨_, rfl, rfl⟩
  | tstep => cases h; exact ⟨_, rfl, rfl⟩
  | clrerr => cases h; exact ⟨_, rfl, rfl⟩
  | srst => cases h; exact ⟨_, rfl, rfl⟩

/-- OVR after a command: kept, or cleared by CLRERR or SRST. -/
theorem exec_ovr {i : Instr} {s t : State} (h : exec i s = .next t) :
    t.ovr = s.ovr ∨ (t.ovr = false ∧ (i = .clrerr ∨ i = .srst)) := by
  cases exec_ending h with
  | failed _ _ ht => exact .inl (ht ▸ rfl)
  | key _ _ _ _ ht => exact .inl (ht ▸ rfl)
  | time _ ht => exact .inl (ht ▸ rfl)
  | code _ _ ht => exact .inl (ht ▸ rfl)
  | timeCode _ _ ht => exact .inl (ht ▸ rfl)
  | keyCode _ _ _ _ ht => exact .inl (ht ▸ rfl)
  | nothing _ ht => exact .inl (ht ▸ rfl)
  | cleared hi ht => subst ht; exact .inr ⟨rfl, .inl hi⟩
  | reset hi ht => subst ht; exact .inr ⟨rfl, .inr hi⟩

/-- OVR after the sequencer's step of a pending command: kept, or cleared by CLRERR or SRST. -/
theorem sequencerStep_ovr {s t : State} (hb : s.busy = true) (h : sequencerStep s = .next t) :
    t.ovr = s.ovr ∨ (t.ovr = false ∧
      (decodeCommand s.pending = .ok .clrerr ∨ decodeCommand s.pending = .ok .srst)) := by
  rcases sequencerStep_cases hb h with ⟨_, _, rfl⟩ | ⟨i, hi, he⟩
  · exact .inl rfl
  · rcases exec_ovr he with ho | ⟨ho, rfl | rfl⟩
    · exact .inl ho
    · exact .inr ⟨ho, .inl hi⟩
    · exact .inr ⟨ho, .inr hi⟩

/-- A host that has not stopped executes the statement at its program counter (R87). -/
theorem hostStep_running {s : State} {st : Stmt} (hs : s.env.hostStopped = false)
    (h : s.env.program[s.env.hostPc]? = some st) : hostStep s = hostStmt s st := by
  simp [hostStep, hs, h]

theorem hostStmt_wr (s : State) (off : Nat) (v : Word) :
    hostStmt s (.wr off v) = hostAccess s.hostAdvance (.write .four off v) := by rw [hostStmt]

/-- `cmd` writes the command's word to CMD (R87). -/
theorem hostStmt_cmd (s : State) (i : Instr) :
    hostStmt s (.cmd i) = hostAccess s.hostAdvance (.write .four (0x008 : Nat) (encode i)) := by
  rw [hostStmt, show ((0x008 : Nat) : Int) = 0x008 from rfl]

/-- A write that comes next while a command is pending is dropped, whoever makes it (R31, R68). -/
theorem nextIsWrite_dropped {s : State} {off : Nat} (hb : s.busy = true) (ha : off % 4 = 0)
    (hw : IsWritableOffset off) (hn : NextIsWrite s off) :
    ∃ env, step s = .next (s.withEnv env).dropWrite := by
  obtain ⟨es, hes⟩ := nextEvent_state s
  have hstep : step s = perform (nextEvent s).1 (s.setAgenda es) := by rw [step, hes]
  have hdrop (env : Env) (v : Word) :
      hostAccess (s.withEnv env) (.write .four off v) = .next (s.withEnv env).dropWrite :=
    hostAccess_dropped (s := s.withEnv env) hb ha hw v
  rcases hn with ⟨v, he⟩ | ⟨he, hrun, ⟨v, hst⟩ | ⟨rfl, i, hst⟩⟩ <;> rw [hstep, he, perform]
  · exact ⟨_, hdrop _ v⟩
  · rw [hostStep_running (s := s.setAgenda es) hrun hst, hostStmt_wr]
    exact ⟨_, hdrop _ v⟩
  · rw [hostStep_running (s := s.setAgenda es) hrun hst, hostStmt_cmd]
    exact ⟨_, hdrop _ (encode i)⟩

/-- A branch that does not fault moves the host's program counter only. -/
theorem hostStmt_ifGoto {s t : State} {c : HostCond} {l : Nat}
    (h : hostStmt s (.ifGoto c l) = .next t) : ∃ pc, t = s.hostGoto pc := by
  rw [hostStmt] at h
  split at h
  · split at h <;> cases h
    exact ⟨_, rfl⟩
  · cases h
    exact ⟨_, rfl⟩

/-- A statement of the host's program that sets OVR is a write at a writable offset, dropped. -/
theorem hostStmt_sets_ovr {s t : State} {st : Stmt} (h : hostStmt s st = .next t)
    (ho : s.ovr = false) (ht : t.ovr = true) :
    s.busy = true ∧ t = s.hostAdvance.dropWrite ∧
      ∃ off : Nat, off % 4 = 0 ∧ IsWritableOffset off ∧
        ((∃ v, st = .wr off v) ∨ (off = 0x008 ∧ ∃ i, st = .cmd i)) := by
  have hkeep : ¬t.ovr = s.ovr := by rw [ho, ht]; simp
  cases st with
  | wr off v =>
    rw [hostStmt_wr] at h
    obtain ⟨hb, hd, off', v', he, ha, hw⟩ := hostAccess_sets_ovr h ho ht
    cases he
    exact ⟨hb, hd, off, ha, hw, .inl ⟨v, rfl⟩⟩
  | cmd i =>
    rw [hostStmt_cmd] at h
    obtain ⟨hb, hd, -⟩ := hostAccess_sets_ovr h ho ht
    exact ⟨hb, hd, 0x008, rfl, by decide, .inr ⟨rfl, i, rfl⟩⟩
  | rd off x =>
    rw [hostStmt] at h
    obtain ⟨-, -, off', v', he, -⟩ := hostAccess_sets_ovr h ho ht
    cases he
  | label l => cases h; exact absurd rfl hkeep
  | stop => cases h; exact absurd rfl hkeep
  | ifGoto c l =>
    obtain ⟨pc, rfl⟩ := hostStmt_ifGoto h
    exact absurd rfl hkeep

/-- A step of the host that sets OVR executes a write at a writable offset, dropped. -/
theorem hostStep_sets_ovr {s t : State} (h : hostStep s = .next t) (ho : s.ovr = false)
    (ht : t.ovr = true) :
    s.busy = true ∧ t = s.hostAdvance.dropWrite ∧ s.env.hostStopped = false ∧
      ∃ off : Nat, off % 4 = 0 ∧ IsWritableOffset off ∧
        ((∃ v, s.env.program[s.env.hostPc]? = some (.wr off v)) ∨
          (off = 0x008 ∧ ∃ i, s.env.program[s.env.hostPc]? = some (.cmd i))) := by
  have hkeep : ¬t.ovr = s.ovr := by rw [ho, ht]; simp
  cases hrun : s.env.hostStopped with
  | true =>
    rw [hostStep, if_pos hrun] at h
    cases h
    exact absurd rfl hkeep
  | false =>
    cases hst : s.env.program[s.env.hostPc]? with
    | none =>
      simp only [hostStep, hrun, hst] at h
      cases h
      exact absurd rfl hkeep
    | some st =>
      rw [hostStep_running hrun hst] at h
      obtain ⟨hb, hd, off, ha, hw, hwr⟩ := hostStmt_sets_ovr h ho ht
      refine ⟨hb, hd, rfl, off, ha, hw, ?_⟩
      simpa using hwr

/-- A step that sets OVR is a write at a writable offset that comes next while a command is pending,
and is dropped (R31). -/
theorem step_sets_ovr {s t : State} (h : step s = .next t) (ho : s.ovr = false)
    (ht : t.ovr = true) :
    s.busy = true ∧ (∃ env, t = (s.withEnv env).dropWrite) ∧
      ∃ off, off % 4 = 0 ∧ IsWritableOffset off ∧ NextIsWrite s off := by
  obtain ⟨es, hes⟩ := nextEvent_state s
  have hkeep : ¬t.ovr = s.ovr := by rw [ho, ht]; simp
  rw [step, hes] at h
  cases he : (nextEvent s).1 with
  | sequencer =>
    rw [he, perform] at h
    cases hb : s.busy with
    | true =>
      rcases sequencerStep_ovr (s := s.setAgenda es) hb h with ho' | ⟨ho', -⟩
      · exact absurd ho' hkeep
      · exact absurd (ho'.symm.trans ht) (by simp)
    | false =>
      rw [sequencerStep_idle (s := s.setAgenda es) hb] at h
      cases h
      exact absurd rfl hkeep
  | host =>
    rw [he, perform] at h
    obtain ⟨hb, hd, hrun, off, ha, hw, hwr⟩ := hostStep_sets_ovr (s := s.setAgenda es) h ho ht
    exact ⟨hb, ⟨_, hd⟩, off, ha, hw, .inr ⟨he, hrun, hwr⟩⟩
  | access a =>
    rw [he, perform] at h
    obtain ⟨hb, hd, off, v, rfl, ha, hw⟩ := hostAccess_sets_ovr (s := s.setAgenda es) h ho ht
    exact ⟨hb, ⟨_, hd⟩, off, ha, hw, .inl ⟨v, he⟩⟩
  | hardReset =>
    rw [he, perform] at h
    cases h
    exact absurd ht (by simp [State.reset])

/-- A step that clears OVR is the hardware reset, or a pending CLRERR or SRST (R31). -/
theorem step_clears_ovr {s t : State} (h : step s = .next t) (ho : s.ovr = true)
    (ht : t.ovr = false) :
    (nextEvent s).1 = .hardReset ∨ ((nextEvent s).1 = .sequencer ∧ s.busy = true ∧
      (decodeCommand s.pending = .ok .clrerr ∨ decodeCommand s.pending = .ok .srst)) := by
  have hkeep : ¬t.ovr = s.ovr := by rw [ho, ht]; simp
  obtain ⟨e, es, hev, hh⟩ := step_happening h
  rw [hev]
  rcases happening_frame hh with ⟨he, hb, hseq⟩ | ⟨he, -⟩ |
    ⟨-, -, -, -, -, -, -, -, -, -, ho' | ⟨-, env, rfl⟩⟩
  · rcases sequencerStep_ovr hb hseq with ho' | ⟨-, hc⟩
    · exact absurd ho' hkeep
    · exact .inr ⟨he, hb, hc⟩
  · exact .inl he
  · exact absurd ho' hkeep
  · cases ht

/-- Settles O17: a dropped write sets OVR and nothing else does, CLRERR and the resets clear it and
nothing else does, and no command reads it. -/
theorem overrunFlag : Obligations.OverrunFlag := by
  refine ⟨fun s off v hb ha hw => hostAccess_dropped hb ha hw v, fun s off hb ha hw hn => ?_,
    fun s t h ho ht => ?_, fun s t => step_clears_ovr,
    fun s => ⟨⟨_, rfl, rfl⟩, ⟨_, rfl, rfl⟩, ⟨_, rfl, rfl⟩⟩, fun s t i b => exec_withOvr b⟩
  · obtain ⟨env, h⟩ := nextIsWrite_dropped hb ha hw hn
    exact ⟨_, h, rfl⟩
  · obtain ⟨hb, ⟨env, rfl⟩, hoff⟩ := step_sets_ovr h ho ht
    exact ⟨hb, rfl, hoff⟩

/-! ### The layout of STATUS -/

/-- A field of `n` bits at bit `k` of a register word. -/
theorem fieldWord_toNat {n : Nat} (x : BitVec n) {k : Nat} (h : n + k ≤ 32) :
    (x.setWidth 32 <<< k).toNat = x.toNat * 2 ^ k := by
  have hn : x.toNat < 2 ^ 32 := x.isLt.trans_le (Nat.pow_le_pow_right (by decide) (by omega))
  have hk : x.toNat * 2 ^ k < 2 ^ 32 := calc
    x.toNat * 2 ^ k < 2 ^ n * 2 ^ k := Nat.mul_lt_mul_of_pos_right x.isLt (by positivity)
    _ = 2 ^ (n + k) := (Nat.pow_add 2 n k).symm
    _ ≤ 2 ^ 32 := Nat.pow_le_pow_right (by decide) h
  rw [BitVec.toNat_shiftLeft, BitVec.toNat_setWidth, Nat.shiftLeft_eq, Nat.mod_eq_of_lt hn,
    Nat.mod_eq_of_lt hk]

/-- Settles O49: each field lies above those before it, so that their disjunction is their sum. -/
theorem statusLayout : Obligations.StatusLayout := by
  intro s
  have hbusy := Bool.toNat_lt s.busy
  have hdone := Bool.toNat_lt s.done
  have herr := Bool.toNat_lt s.err
  have hvalid := Bool.toNat_lt s.valid
  have habort := Bool.toNat_lt s.abort
  have hovr := Bool.toNat_lt s.ovr
  have hcode := s.errcode.isLt
  simp (disch := omega) only [statusWord, BitVec.toNat_or, bitWord_toNat, fieldWord_toNat,
    or_mul_pow_eq_add]
  omega

/-! ### The buffers' words -/

/-- Byte `k` of a word written to a buffer, most significant first (R64). -/
theorem readByte_writeWord_inside {m : Memory} (h : m.wf = true) (j : Nat) (v : Word) {k : Nat}
    (hk : k < 4) :
    ((m.writeWord j v).readByte (4 * j + k)).toNat = v.toNat / 256 ^ (3 - k) % 256 := by
  rw [readByte_writeWord h, if_pos (by omega), Nat.add_sub_cancel_left, wordBytes_getD_toNat v hk]

/-- A word written to a buffer leaves every other byte. -/
theorem readByte_writeWord_outside {m : Memory} (h : m.wf = true) (j : Nat) (v : Word) {i : Nat}
    (hi : i < 4 * j ∨ 4 * j + 4 ≤ i) : (m.writeWord j v).readByte i = m.readByte i := by
  rw [readByte_writeWord h, if_neg (by omega)]

/-- A write of TOKEN word `j` with no command pending (R45, R68). -/
theorem hostAccess_write_token {s : State} (hb : s.busy = false) (j : Fin 64) (v : Word) :
    hostAccess s (.write .four ((0x100 + 4 * j.val : Nat) : Int) v) =
      .next { s with token := s.token.writeWord j.val v } := by
  rw [hostAccess_write s (by omega) (by omega), regAt_token, busWrite_idle hb (.inl rfl), writeReg]

/-- A write of KEY word `j` with no command pending (R46, R68). -/
theorem hostAccess_write_key {s : State} (hb : s.busy = false) (j : Fin 40) (v : Word) :
    hostAccess s (.write .four ((0x200 + 4 * j.val : Nat) : Int) v) =
      .next { s with key := s.key.writeWord j.val v } := by
  rw [hostAccess_write s (by omega) (by omega), regAt_key, busWrite_idle hb (.inl rfl), writeReg]

/-- Settles O54: a buffer word's write is a write of its four bytes. -/
theorem bufferWordPacking : Obligations.BufferWordPacking :=
  ⟨fun _ j v hb hwf => ⟨_, hostAccess_write_token hb j v,
      fun _ hk => readByte_writeWord_inside hwf j.val v hk,
      fun _ hi => readByte_writeWord_outside hwf j.val v hi, rfl⟩,
    fun _ j v hb hwf => ⟨_, hostAccess_write_key hb j v,
      fun _ hk => readByte_writeWord_inside hwf j.val v hk,
      fun _ hi => readByte_writeWord_outside hwf j.val v hi, rfl⟩⟩

/-! ### Which command a step runs -/

/-- The sequencer runs the command its pending word decodes to (R85). -/
theorem sequencerStep_legal {s : State} {i : Instr} (hb : s.busy = true)
    (hi : decodeCommand s.pending = .ok i) : sequencerStep s = exec i s := by
  simp only [sequencerStep, hb, hi, if_true]

/-- A pending illegal word is raised as ILLEGAL_CMD (R84). -/
theorem sequencerStep_illegal {s : State} {r : Illegal} (hb : s.busy = true)
    (hr : decodeCommand s.pending = .error r) :
    sequencerStep s = .next (s.raise false .illegalCmd) := by
  simp only [sequencerStep, hb, hr, if_true, illegalWord]

/-- Settles O4: in both orders the event is the sequencer's, which runs the decoded command or
raises the illegal word. -/
theorem stepRunsPendingCommand : Obligations.StepRunsPendingCommand := by
  refine ⟨fun s i hb _ hi => ⟨fun h => ?_, fun rest h => ?_⟩,
    fun s r hb hr => ⟨fun h => ?_, fun rest h => ?_⟩⟩
  · rw [step_busy h hb, sequencerStep_legal hb hi]
  · rw [step_agenda h]
    exact sequencerStep_legal (s := s.setAgenda rest) hb hi
  · rw [step_busy h hb, sequencerStep_illegal hb hr]
    rfl
  · rw [step_agenda h]
    exact sequencerStep_illegal (s := s.setAgenda rest) hb hr

/-- The state that stands for a fetched word has accepted it, with the sequencer's step next. -/
theorem withFetchWord_eq (s : State) (w : Word) :
    s.withFetchWord 32 w.toNat = (s.accept w).setAgenda (.sequencer :: s.env.agenda) := by
  rw [State.withFetchWord, Nat.mod_eq_of_lt w.isLt, BitVec.ofNat_toNat, BitVec.setWidth_eq]
  rfl

/-- Settles O6: the step takes the sequencer's event, which stands first, and the agenda it leaves is
the one the word was accepted with. -/
theorem fetchedWordRunsNext : Obligations.FetchedWordRunsNext := by
  intro s w i hi
  rw [withFetchWord_eq, step_agenda rfl]
  exact sequencerStep_legal (s := s.accept w) rfl hi

end Sys2Proof.Proofs.BlockState

/-! PROOFS. The statements about the register window (spec/20_memory.md): what an access of any
size, offset and kind does, that a write while a command is pending leaves the command's end as it
was, and the order of events. -/

namespace Sys2Proof.Proofs.RegisterWindow

open Sys2Proof.Machine Sys2Proof.Laws Sys2Proof.Proofs.BlockState

/-! ### Writes at every offset (R68) -/

/-- A write at a reserved or read-only offset changes nothing (R68). -/
theorem hostAccess_ignored (s : State) {off : Nat} (hl : off < 4096) (ha : off % 4 = 0)
    (hr : IsReservedOffset off ∨ IsReadOnlyOffset off) (v : Word) :
    hostAccess s (.write .four off v) = .next s := by
  obtain ⟨hres, hro, -⟩ := regAt_class ha
  rw [hostAccess_write s hl ha, busWrite_ignored]
  rcases hr with hr | hr
  · exact .inr (by rw [hres hr]; rfl)
  · exact .inl (hro hr)

/-- A write at a writable offset with no command pending is stored (R68). -/
theorem hostAccess_stored {s : State} {off : Nat} (hl : off < 4096) (ha : off % 4 = 0)
    (hb : s.busy = false) (hw : IsWritableOffset off) (v : Word) :
    hostAccess s (.write .four off v) = .next (writeReg s v (regAt off)) := by
  obtain ⟨-, -, hacc, -⟩ := regAt_class ha
  rw [hostAccess_write s hl ha, busWrite_idle hb (hacc hw)]

/-- A word stored inside TOKEN, by its offset (R45). -/
theorem writeReg_inside_token (s : State) (v : Word) {off : Nat} (ha : off % 4 = 0)
    (h0 : 0x100 ≤ off) (h1 : off < 0x200) :
    writeReg s v (regAt off) = { s with token := s.token.writeWord ((off - 0x100) / 4) v } := by
  obtain ⟨j, hj, hreg⟩ := regAt_inside_token h0 h1 ha
  rw [hreg, writeReg, show (off - 0x100) / 4 = j.val by omega]

/-- A word stored inside KEY, by its offset (R46). -/
theorem writeReg_inside_key (s : State) (v : Word) {off : Nat} (ha : off % 4 = 0)
    (h0 : 0x200 ≤ off) (h1 : off < 0x2A0) :
    writeReg s v (regAt off) = { s with key := s.key.writeWord ((off - 0x200) / 4) v } := by
  obtain ⟨j, hj, hreg⟩ := regAt_inside_key h0 h1 ha
  rw [hreg, writeReg, show (off - 0x200) / 4 = j.val by omega]

/-- Settles O50: the class of the offset and BUSY decide whether the write is ignored, dropped or
stored, and a stored one goes to the register at the offset. -/
theorem alignedWriteRule : Obligations.AlignedWriteRule := by
  intro s off v hl ha
  refine ⟨fun hr => hostAccess_ignored s hl ha hr v, fun hw hb => hostAccess_dropped hb ha hw v,
    fun hw hb => ⟨_, hostAccess_stored hl ha hb hw v, ?_, ?_, ?_, ?_, ?_, ?_, ?_, ?_,
      writeReg_inside_token s v ha, writeReg_inside_key s v ha⟩⟩ <;>
    rintro rfl <;> rfl

/-! ### Reads at every offset (R67, R69) -/

/-- A read with no command pending, or at an offset that reads exactly, gives the host's variable
the register's value and does nothing else (R67). -/
theorem hostAccess_read_exact {s : State} {off : Nat} (hl : off < 4096) (ha : off % 4 = 0)
    (hr : s.busy = false ∨ ReadsWhileBusy off) (x : Nat) :
    hostAccess s (.read .four off x) = .next (s.bindVar x (readReg s (regAt off))) := by
  obtain ⟨-, -, -, hexact, -⟩ := regAt_class ha
  have hread : busRead s (regAt off) = (readReg s (regAt off), s) := by
    rcases hr with hb | hr
    · exact busRead_idle hb _
    · exact busRead_exact s (hexact hr)
  rw [hostAccess_read s hl ha, hread]

/-- A read of any other offset while a command is pending draws a free value (R69). -/
theorem hostAccess_read_drawn {s : State} {off : Nat} (hl : off < 4096) (ha : off % 4 = 0)
    (hb : s.busy = true) (hr : ¬ReadsWhileBusy off) (x : Nat) :
    hostAccess s (.read .four off x) = .next (s.draw.2.bindVar x s.draw.1) := by
  obtain ⟨-, -, -, -, hopen⟩ := regAt_class ha
  rw [hostAccess_read s hl ha, busRead_busy hb (hopen hr)]

/-- CONFIG as read: FAILFAST in bit 0, STRICT in bit 1, every other bit 0 (R23). -/
theorem configWord_toNat (s : State) :
    (configWord s).toNat = s.failfast.toNat + 2 * s.strict.toNat := by
  have hfail := Bool.toNat_lt s.failfast
  simp (disch := omega) only [configWord, BitVec.toNat_or, bitWord_toNat, or_mul_pow_eq_add]
  omega

/-- Four consecutive bytes of a byte vector. -/
theorem take_drop_toList {n i : Nat} (h : Vector Byte n) (hi : i + 3 < n) :
    (h.toList.drop i).take 4 = [h[i], h[i + 1], h[i + 2], h[i + 3]] := by
  have hn : h.toList.length = n := h.length_toList
  rw [List.drop_eq_getElem_cons (by omega), List.drop_eq_getElem_cons (by omega),
    List.drop_eq_getElem_cons (by omega), List.drop_eq_getElem_cons (by omega)]
  simp

/-- DIGITS_HI holds the first four digits (R39). -/
theorem readReg_digitsHi_toNat (s : State) :
    (readReg s .digitsHi).toNat = fromBe (s.digits.toList.take 4) := by
  rw [readReg, packWord_toNat, ← take_drop_toList s.digits (i := 0) (by omega), List.drop_zero]

/-- DIGITS_LO holds the last two digits, above two zero bytes (R39). -/
theorem readReg_digitsLo_toNat (s : State) :
    (readReg s .digitsLo).toNat = fromBe (s.digits.toList.drop 4 ++ [0, 0]) := by
  have hlast : s.digits.toList.drop 4 = [s.digits[4], s.digits[5]] := by
    have hn : s.digits.toList.length = 6 := s.digits.length_toList
    rw [List.drop_eq_getElem_cons (by omega), List.drop_eq_getElem_cons (by omega),
      List.drop_eq_nil_of_le (by omega)]
    rfl
  rw [readReg, packWord_toNat, hlast]
  rfl

/-- DIGEST word `j` stands at 0x040 + 4j (R42). -/
theorem regAt_digest : ∀ j : Fin 5, regAt (0x040 + 4 * j.val) = .digest j := by decide

/-- A DIGEST word as read, by its offset: the digest's four bytes there (R42). -/
theorem readReg_inside_digest_toNat (s : State) {off : Nat} (ha : off % 4 = 0)
    (h0 : 0x040 ≤ off) (h1 : off < 0x054) :
    (readReg s (regAt off)).toNat = fromBe ((s.digest.toList.drop (off - 0x040)).take 4) := by
  obtain ⟨j, rfl⟩ : ∃ j : Fin 5, off = 0x040 + 4 * j.val :=
    ⟨⟨(off - 0x040) / 4, by omega⟩, by dsimp only; omega⟩
  rw [regAt_digest, readReg, digestWord, packWord_toNat, Nat.add_sub_cancel_left,
    take_drop_toList s.digest (by omega)]

/-- Word `j` of a buffer as a number (R45, R64). -/
theorem readWord_toNat (m : Memory) (j : Nat) :
    (m.readWord j).toNat = fromBe [m.readByte (4 * j), m.readByte (4 * j + 1),
      m.readByte (4 * j + 2), m.readByte (4 * j + 3)] := packWord_toNat _ _ _ _

/-- A TOKEN word as read, by its offset (R45). -/
theorem readReg_inside_token_toNat (s : State) {off : Nat} (ha : off % 4 = 0)
    (h0 : 0x100 ≤ off) (h1 : off < 0x200) :
    (readReg s (regAt off)).toNat = fromBe
      [s.token.readByte (off - 0x100), s.token.readByte (off - 0x100 + 1),
        s.token.readByte (off - 0x100 + 2), s.token.readByte (off - 0x100 + 3)] := by
  obtain ⟨j, rfl, hreg⟩ := regAt_inside_token h0 h1 ha
  rw [hreg, readReg, readWord_toNat, Nat.add_sub_cancel_left]

/-- A KEY word as read, by its offset (R46). -/
theorem readReg_inside_key_toNat (s : State) {off : Nat} (ha : off % 4 = 0)
    (h0 : 0x200 ≤ off) (h1 : off < 0x2A0) :
    (readReg s (regAt off)).toNat = fromBe
      [s.key.readByte (off - 0x200), s.key.readByte (off - 0x200 + 1),
        s.key.readByte (off - 0x200 + 2), s.key.readByte (off - 0x200 + 3)] := by
  obtain ⟨j, rfl, hreg⟩ := regAt_inside_key h0 h1 ha
  rw [hreg, readReg, readWord_toNat, Nat.add_sub_cancel_left]

/-- A reserved offset reads 0 (R47). -/
theorem readReg_reserved (s : State) {off : Nat} (ha : off % 4 = 0) (hr : IsReservedOffset off) :
    readReg s (regAt off) = 0 := by
  rw [(regAt_class ha).1 hr, readReg]

/-- Settles O51: the read gives the value of the register at the offset, and each clause is what
that register reads as. -/
theorem alignedReadRule : Obligations.AlignedReadRule := by
  intro s off x hl ha hr
  refine ⟨_, hostAccess_read_exact hl ha hr x, ?id, ?config, ?cmd, ?status, ?timeHi, ?timeLo,
    ?ctrHi, ?ctrLo, ?secrem, ?toklen, ?keylen, ?code, ?digitsHi, ?digitsLo, ?offset, ?snum,
    readReg_inside_digest_toNat s ha, ?param, ?const, readReg_inside_token_toNat s ha,
    readReg_inside_key_toNat s ha, readReg_reserved s ha⟩ <;> rintro rfl
  case id | cmd | status | toklen | keylen | param | const => rfl
  case config => exact configWord_toNat s
  case timeHi => exact hiWord_toNat s.time
  case timeLo => exact loWord_toNat s.time
  case ctrHi => exact hiWord_toNat s.ctr
  case ctrLo => exact loWord_toNat s.ctr
  case secrem | code | offset | snum => exact BitVec.toNat_setWidth_of_le (by decide)
  case digitsHi => exact readReg_digitsHi_toNat s
  case digitsLo => exact readReg_digitsLo_toNat s

/-- What an answered read can do: nothing, outside the window, or read a register into the host's
variable. -/
theorem hostAccess_read_cases {s t : State} {size : AccessSize} {off : Int} {x : Nat}
    (h : hostAccess s (.read size off x) = .next t) :
    t = s ∨ ∃ r, t = (busRead s r).2.bindVar x (busRead s r).1 := by
  rw [hostAccess] at h
  split at h
  · split at h <;> cases h
    exact .inr ⟨_, rfl⟩
  · cases h
    exact .inl rfl

/-- Settles O52: a read changes at most the host's variable and the count of draws. -/
theorem readsLeaveBlockUnchanged : Obligations.ReadsLeaveBlockUnchanged := by
  refine ⟨fun s t size off x h => ?_, fun s off x hl ha hb hr =>
    ⟨_, hostAccess_read_drawn hl ha hb hr x, rfl, rfl⟩⟩
  rcases hostAccess_read_cases h with rfl | ⟨r, rfl⟩
  · rfl
  · rcases busRead_state s r with hs | hs <;> rw [hs] <;> rfl

/-! ### Accesses the block does not define, and those outside the window (R60 to R63) -/

/-- Inside the window an access of another size or alignment is a BusFault (R63). -/
theorem hostAccess_undefined (s : State) {size : AccessSize} {off : Int}
    (hin : inWindow off = true) (hdef : definedAccess size off = false) (x : Nat) (v : Word) :
    hostAccess s (.read size off x) = .fault (.busFault (Config.totpBase + off)) ∧
      hostAccess s (.write size off v) = .fault (.busFault (Config.totpBase + off)) := by
  simp [hostAccess, hin, hdef]

/-- An access outside the window does not reach the block (R60). -/
theorem hostAccess_outside (s : State) {off : Int} (hout : inWindow off = false)
    (size : AccessSize) (x : Nat) (v : Word) :
    hostAccess s (.read size off x) = .next s ∧ hostAccess s (.write size off v) = .next s := by
  simp [hostAccess, hout]

/-- The one defined access has four bytes and is aligned (R62). -/
theorem definedAccess_eq_false {size : AccessSize} {off : Nat} (h : size ≠ .four ∨ off % 4 ≠ 0) :
    definedAccess size off = false := by
  simp only [definedAccess, Bool.and_eq_false_iff, decide_eq_false_iff_not]
  exact h.imp_right (by omega)

/-- Settles O53: the address's place in the window, then the access's size and alignment, decide. -/
theorem undefinedAccessFaults : Obligations.UndefinedAccessFaults := by
  refine ⟨fun s off size x v hl hu => ?_, fun s off x v hl ha => ?_, fun s a size x v hout => ?_⟩
  · have hin : inWindow (offsetOf Config.totpBase (Config.totpBase + off)) = true :=
      (inWindow_offsetOf _ _).2 ⟨by omega, Nat.add_lt_add_left hl _⟩
    rw [offsetOf_base_add] at hin
    rw [memRead, memWrite, offsetOf_base_add]
    exact hostAccess_undefined s hin (definedAccess_eq_false hu) x v
  · rw [memRead, memWrite, offsetOf_base_add]
    exact ⟨⟨_, hostAccess_read s hl ha x⟩, _, hostAccess_write s hl ha v⟩
  · have hnot : inWindow (offsetOf Config.totpBase a) = false := by
      rw [← Bool.not_eq_true, inWindow_offsetOf, Config.windowBytes]
      omega
    exact hostAccess_outside s hnot size x v

/-! ### Writes while a command is pending (R73, R286) -/

/-- An answered write while a command is pending changes nothing, or is dropped (R68). -/
theorem hostAccess_write_busy {s u : State} {size : AccessSize} {off : Int} {v : Word}
    (hb : s.busy = true) (h : hostAccess s (.write size off v) = .next u) :
    u = s ∨ u = s.dropWrite := by
  rw [hostAccess] at h
  split at h
  · split at h <;> cases h
    rcases busWrite_cases s (regAt off.toNat) v with hw | ⟨-, hw⟩ | ⟨hidle, -⟩
    · exact .inl hw
    · exact .inr hw
    · rw [hb] at hidle
      cases hidle
  · cases h
    exact .inl rfl

/-- The sequencer's step neither reads OVR nor ends otherwise for it (R31). -/
theorem sequencerStep_withOvr {s t : State} (b : Bool) (hb : s.busy = true)
    (h : sequencerStep s = .next t) :
    ∃ w, sequencerStep { s with ovr := b } = .next w ∧ { w with ovr := t.ovr } = t := by
  rcases sequencerStep_cases hb h with ⟨r, hr, rfl⟩ | ⟨i, hi, he⟩
  · exact ⟨_, sequencerStep_illegal (s := { s with ovr := b }) hb hr, rfl⟩
  · rw [sequencerStep_legal (s := { s with ovr := b }) hb hi]
    exact exec_withOvr b he

/-- Settles O55: the write leaves the state but for OVR, which no command reads. -/
theorem busyWriteDoesNotDisturb : Obligations.BusyWriteDoesNotDisturb := by
  intro s t u off v hb hu ht
  rcases hostAccess_write_busy hb hu with rfl | rfl
  · exact ⟨t, ht, rfl⟩
  · exact sequencerStep_withOvr true hb ht

/-! ### The order of events (R72) -/

/-- A stopped host does nothing (R87). -/
theorem hostStep_stopped {s : State} (h : s.env.hostStopped = true) : hostStep s = .next s := by
  rw [hostStep, if_pos h]

/-- Settles O5: a step is its first event's, and without one the sequencer's or the host's. -/
theorem stepFollowsAgenda : Obligations.StepFollowsAgenda := by
  refine ⟨fun s a rest h => step_agenda h, fun s rest h => step_agenda h,
    fun s rest h => step_agenda h, fun s rest h => step_agenda h, fun s rest h hb => ?_,
    fun s => step_busy, fun s => step_host, fun s h hb hstop => ?_⟩
  · rw [step_agenda h]
    exact sequencerStep_idle (s := s.setAgenda rest) hb
  · rw [step_host h hb, hostStep_stopped hstop]

end Sys2Proof.Proofs.RegisterWindow

/-! PROOFS. The statements about the command word and the host's program (spec/30_encoding.md): the
decoder and the encoder, what becomes of an illegal word, and the host's `cmd` and `ldtok`. -/

namespace Sys2Proof.Proofs.CommandWords

open Sys2Proof.Machine Sys2Proof.Laws Sys2Proof.Proofs.BlockState Sys2Proof.Proofs.RegisterWindow

/-! ### The decoder and the encoder -/

/-- Every command's word has its reserved bits 0 and the command's own opcode (R82). -/
theorem encodingFields (i : Instr) : EncodingFields.Statement i := by
  cases i with
  | nop => exact EncodingFields.nop
  | b32dec => exact EncodingFields.b32dec
  | tstep => exact EncodingFields.tstep
  | hotp => exact EncodingFields.hotp
  | totp => exact EncodingFields.totp
  | rowcode => exact EncodingFields.rowcode
  | clrerr => exact EncodingFields.clrerr
  | srst => exact EncodingFields.srst

@[simp] theorem decodeCommand_encode (i : Instr) : decodeCommand (encode i) = .ok i := by
  obtain ⟨hrsv, hopc⟩ := encodingFields i
  simp [decodeCommand, hrsv, hopc]

theorem encode_injective {i j : Instr} (h : encode i = encode j) : i = j := by
  have hij := congrArg decodeCommand h
  rw [decodeCommand_encode, decodeCommand_encode] at hij
  exact Except.ok.inj hij

/-- The illegal words, by their fields (R84). -/
theorem decodeCommand_eq_error_iff {w : Word} :
    (∃ r, decodeCommand w = .error r) ↔ w.toNat / 256 ≠ 0 ∨ 8 ≤ w.toNat % 256 := by
  refine ⟨fun ⟨r, hr⟩ => ?_, decodeCommand_illegal⟩
  by_contra hlegal
  obtain ⟨i, hi, -⟩ := decodeCommand_legal (w := w) (by omega) (by omega)
  rw [hr] at hi
  cases hi

/-- A word that decodes to a command is the command's word. -/
theorem encode_of_decodeCommand {w : Word} {i : Instr} (h : decodeCommand w = .ok i) :
    encode i = w := by
  by_cases hill : w.toNat / 256 ≠ 0 ∨ 8 ≤ w.toNat % 256
  · obtain ⟨r, hr⟩ := decodeCommand_illegal hill
    rw [hr] at h
    cases h
  · obtain ⟨j, hj, hw⟩ := decodeCommand_legal (w := w) (by omega) (by omega)
    rw [hj] at h
    cases h
    exact hw

/-- Settles O2: each command's word has the fields the decoder reads, and the decoder's answer names
the word. -/
theorem decodeEncodeAgree : Obligations.DecodeEncodeAgree :=
  ⟨fun i _ => decodeCommand_encode i, fun _ _ => encode_of_decodeCommand,
    fun _ _ => encode_injective⟩

/-- Settles O1: the eight words of the map are the commands' words, and the fields of a word say
whether it is illegal. -/
theorem opcodeMapSelectsCommand : Obligations.OpcodeMapSelectsCommand :=
  ⟨⟨decodeCommand_encode .nop, decodeCommand_encode .b32dec, decodeCommand_encode .tstep,
      decodeCommand_encode .hotp, decodeCommand_encode .totp, decodeCommand_encode .rowcode,
      decodeCommand_encode .clrerr, decodeCommand_encode .srst⟩,
    fun _ => decodeCommand_eq_error_iff.symm⟩

/-- A word with a reserved bit set is rejected for it, whatever its opcode (R84, R85). -/
theorem decodeCommand_reservedBits {w : Word} (h : rsvField w ≠ 0) :
    decodeCommand w = .error .reservedBits := by
  rw [decodeCommand, if_pos h]

/-- A word with its reserved bits 0 and an opcode of no command is rejected by that opcode (R84). -/
theorem decodeCommand_reservedOpcode {w : Word} (h : rsvField w = 0)
    (hopc : commandOfOpcode (opcField w) = none) :
    decodeCommand w = .error (.reservedOpcode (opcField w)) := by
  simp [decodeCommand, h, hopc]

/-- A row of the opcode table whose bits are a command's word stands for the command. -/
theorem decodeTableWord_encode (i : Instr) : decodeTableWord 32 (encode i).toNat = some i := by
  rw [decodeTableWord, if_pos (Nat.le_refl 32), Nat.mod_eq_of_lt (encode i).isLt,
    BitVec.ofNat_toNat, BitVec.setWidth_eq, decodeCommand_encode]

/-- Settles O3: the two legal words are their commands' encodings, the two illegal ones are rejected
by the field that is wrong, and the table word is HOTP's. -/
theorem writtenOutWordsDecode : Obligations.WrittenOutWordsDecode :=
  ⟨decodeCommand_encode .rowcode, decodeCommand_encode .clrerr,
    decodeCommand_reservedBits (by decide),
    decodeCommand_reservedOpcode (w := 0x00000008) (by decide) (by decide),
    decodeTableWord_encode .hotp⟩

/-! ### Writes of CMD -/

/-- A write of CMD with no command pending is the acceptance of the word (R24). -/
theorem hostAccess_write_cmd_idle {s : State} (hb : s.busy = false) (w : Word) :
    hostAccess s (.write .four 0x008 w) = .next (s.accept w) :=
  hostAccess_stored (off := 0x008) (by decide) (by decide) hb (by decide) w

/-- A write of CMD while a command is pending is dropped (R68). -/
theorem hostAccess_write_cmd_busy {s : State} (hb : s.busy = true) (w : Word) :
    hostAccess s (.write .four 0x008 w) = .next s.dropWrite :=
  hostAccess_dropped (off := 0x008) hb (by decide) (by decide) w

/-- Settles O56: `cmd` is a write of CMD by a host that has advanced. -/
theorem hostCommandIsAcceptance : Obligations.HostCommandIsAcceptance := by
  intro s i hrun hst
  rw [hostStep_running hrun hst, hostStmt]
  exact ⟨fun hb => hostAccess_write_cmd_idle (s := s.hostAdvance) hb _,
    fun hb => hostAccess_write_cmd_busy (s := s.hostAdvance) hb _⟩

/-! ### Illegal words (R84) -/

/-- The reset state with the fail-fast latch set. -/
def latchedState : State := { State.reset with abort := true }

/-- In the latched state a command that decodes a token or makes a code fails, where NOP succeeds. -/
theorem exec_latchedState_secret {i : Instr} (h : (isDecodeCommand i || isCodeCommand i) = true) :
    exec i latchedState ≠ exec .nop latchedState := by
  rw [exec_aborted rfl h, exec_nop]
  intro heq
  have herr := congrArg State.err (Host.Outcome.next.inj heq)
  rw [raise_err, complete_err] at herr
  cases herr

/-- Every other command but NOP leaves SECREM or the latch otherwise than NOP does. -/
theorem exec_latchedState_ne_nop {i : Instr} (hi : i ≠ .nop) :
    exec i latchedState ≠ exec .nop latchedState := by
  cases i with
  | nop => exact absurd rfl hi
  | b32dec => exact exec_latchedState_secret rfl
  | hotp => exact exec_latchedState_secret rfl
  | totp => exact exec_latchedState_secret rfl
  | rowcode => exact exec_latchedState_secret rfl
  | tstep =>
    intro heq
    have hsec := congrArg State.secrem (Host.Outcome.next.inj heq)
    revert hsec
    decide
  | clrerr =>
    intro heq
    cases congrArg State.abort (Host.Outcome.next.inj heq)
  | srst =>
    intro heq
    cases congrArg State.abort (Host.Outcome.next.inj heq)

/-- Settles O12: an illegal word is accepted like any other and raised by the sequencer, and the
latched state tells every other command from NOP. -/
theorem illegalWordCompletes : Obligations.IllegalWordCompletes := by
  refine ⟨fun s w hb hw => ?_, fun i hi => ⟨latchedState, exec_latchedState_ne_nop hi⟩⟩
  obtain ⟨r, hr⟩ := decodeCommand_illegal hw
  exact ⟨s.accept w, hostAccess_write_cmd_idle hb w, opcField_toNat w, rfl,
    sequencerStep_illegal (s := s.accept w) rfl hr⟩

/-! ### `ldtok` (R88) -/

/-- A byte string is written as its first part and then its second. -/
theorem writeBytes_append (m : Memory) (i : Nat) (as bs : Bytes) :
    m.writeBytes i (as ++ bs) = (m.writeBytes i as).writeBytes (i + as.length) bs := by
  induction as generalizing m i with
  | nil => rfl
  | cons a as ih =>
    rw [List.cons_append, Memory.writeBytes, Memory.writeBytes, ih, List.length_cons,
      Nat.add_right_comm, Nat.add_assoc]

/-- The first bytes of a buffer after a string was written at its start are the string's. -/
theorem firstBytes_writeBytes {m : Memory} (h : m.wf = true) (bs rest : Bytes) :
    (m.writeBytes 0 (bs ++ rest)).firstBytes bs.length = bs := by
  refine List.ext_getElem (firstBytes_length _ _) fun i hi hi' => ?_
  rw [firstBytes_getElem, readByte_writeBytes h, List.length_append, if_pos (by omega), Nat.sub_zero,
    List.getD_append _ _ _ _ hi', List.getD_eq_getElem _ _ hi']

/-- `wr` to TOKEN word `j` with no command pending (R45, R87). -/
theorem hostStmt_wr_token {s : State} (hb : s.busy = false) (j : Fin 64) (w : Word) :
    hostStmt s (.wr (0x100 + 4 * j.val) w) =
      .next { s.hostAdvance with token := s.token.writeWord j.val w } := by
  rw [hostStmt_wr, hostAccess_write_token (s := s.hostAdvance) hb]
  rfl

/-- `wr` to TOKLEN with no command pending (R36, R87). -/
theorem hostStmt_wr_toklen {s : State} (hb : s.busy = false) (v : Word) :
    hostStmt s (.wr 0x024 v) = .next { s.hostAdvance with toklen := v } := by
  rw [hostStmt_wr, hostAccess_stored (s := s.hostAdvance) (by decide) (by decide) hb (by decide)]
  rfl

/-- A statement that runs through, and then the rest of the piece. -/
theorem runStmts_cons {st : Stmt} (p : List Stmt) {s t : State} (h : hostStmt s st = .next t) :
    runStmts (st :: p) s = runStmts p t := by
  simp only [runStmts, h]

/-- The piece of `ldtok` that writes the words from TOKEN word `j` on: their bytes go to TOKEN, and
nothing else of the block changes. -/
theorem runStmts_wordWrites_token {ws : List Word} {j : Nat} {s : State} (hb : s.busy = false)
    (hj : j + ws.length ≤ 64) :
    ∃ env, runStmts (wordWrites (0x100 + 4 * j) ws) s =
      .next { s with token := s.token.writeBytes (4 * j) (ws.flatMap wordBytes), env := env } := by
  induction ws generalizing j s with
  | nil => exact ⟨s.env, rfl⟩
  | cons w ws ih =>
    rw [List.length_cons] at hj
    have hw := hostStmt_wr_token hb ⟨j, by omega⟩ w
    obtain ⟨env, hrest⟩ := ih (j := j + 1)
      (s := { s.hostAdvance with token := s.token.writeWord j w }) hb (by omega)
    refine ⟨env, ?_⟩
    rw [wordWrites, runStmts_cons _ hw, Nat.add_assoc, ← Nat.mul_add_one, hrest, List.flatMap_cons,
      writeBytes_append, wordBytes_length]
    rfl

/-- `ldtok` writes the bytes of its words to TOKEN and the string's length to TOKLEN (R88). -/
theorem runStmts_ldtokOp {s : State} (hb : s.busy = false) {bs : Bytes} (hn : bs.length ≤ 256) :
    ∃ env, runStmts (ldtokOp bs) s =
      .next { s with
        token := s.token.writeBytes 0 ((stringWords bs).flatMap wordBytes)
        toklen := BitVec.ofNat 32 bs.length
        env := env } := by
  have hlen := stringWords_length bs
  obtain ⟨env, hwords⟩ := runStmts_wordWrites_token (ws := stringWords bs) (j := 0) hb (by omega)
  rw [ldtokOp, runStmts_append _ hwords, runStmts_cons [] (hostStmt_wr_toklen (by exact hb) _)]
  exact ⟨_, rfl⟩

/-- Settles O57: the bytes `ldtok` writes begin with the string, and TOKLEN holds its length. -/
theorem ldtokLoadsToken : Obligations.LdtokLoadsToken := by
  intro s bs hb hwf hn
  obtain ⟨env, hrun⟩ := runStmts_ldtokOp hb hn
  refine ⟨_, hrun, ?_, rfl⟩
  obtain ⟨k, hbytes⟩ := stringWords_bytes bs
  have hlen : (BitVec.ofNat 32 bs.length).toNat = bs.length := by
    rw [BitVec.toNat_ofNat, Nat.mod_eq_of_lt (by omega)]
  rw [tokenOperand, hlen, hbytes]
  exact firstBytes_writeBytes hwf bs _

end Sys2Proof.Proofs.CommandWords

/-! PROOFS. The statements about the base32 decoder (spec/40_base32.md): cleaning, the alphabet, the
length of a token, the packing of its bits, the round trip with the encoding, and B32DEC. -/

namespace Sys2Proof.Proofs.Base32

open Sys2Proof.Machine Sys2Proof.Laws Sys2Proof.Proofs.BlockState

/-! ### What the decoder answers (R107), over the values of the cleaned token -/

/-- B32_BADCHAR is checked first, and is the answer exactly when some byte has no value. -/
theorem b32decode_eq_badChar {tok : Bytes} {strict : Bool} :
    b32decode tok strict = .error .badChar ↔ base32Vals (clean tok) = none := by
  rw [b32decode]
  cases base32Vals (clean tok) with
  | none => exact ⟨fun _ => rfl, fun _ => rfl⟩
  | some vs =>
    simp only [reduceCtorEq, iff_false]
    split
    · simp
    · split <;> simp

section Valued

variable {tok : Bytes} {vs : List (BitVec 5)} (hv : base32Vals (clean tok) = some vs)

include hv

/-- Over values the decoder checks the length, then the tail. -/
theorem b32decode_of_vals (strict : Bool) : b32decode tok strict =
    if 5 ≤ 5 * vs.length % 8 then .error .badLen
    else if strict = true ∧ true ∈ tailBits (valueBits vs) then .error .badTail
    else .ok (wholeBytes (valueBits vs)) := by
  rw [b32decode, hv]
  simp

theorem b32decode_eq_badLen {strict : Bool} :
    b32decode tok strict = .error .badLen ↔ 5 ≤ 5 * vs.length % 8 := by
  rw [b32decode_of_vals hv]
  split
  · simp [*]
  · split <;> simp [*]

theorem b32decode_eq_badTail (hn : 5 * vs.length % 8 < 5) (ht : true ∈ tailBits (valueBits vs)) :
    b32decode tok true = .error .badTail := by
  rw [b32decode_of_vals hv, if_neg (by omega), if_pos ⟨rfl, ht⟩]

/-- A tail that is not looked at, or is all zero, leaves the whole bytes as the answer. -/
theorem b32decode_eq_ok {strict : Bool} (hn : 5 * vs.length % 8 < 5)
    (ht : strict = true → true ∉ tailBits (valueBits vs)) :
    b32decode tok strict = .ok (wholeBytes (valueBits vs)) := by
  rw [b32decode_of_vals hv, if_neg (by omega), if_neg fun h => ht h.1 h.2]

end Valued

/-! ### The round trip (R110) -/

/-- A token that cleans to the encoding of a byte string decodes to it: the values of the encoding
hold the string's bits and fewer than five zeros, which are the tail. -/
theorem b32decode_of_clean_eq_b32encode {tok b : Bytes} (h : clean tok = b32encode b)
    (strict : Bool) : b32decode tok strict = .ok b := by
  obtain ⟨-, vs, k, hk, hvals, hbits⟩ := bitsToChars_values (b.flatMap msbBits)
  have hv : base32Vals (clean tok) = some vs := by rw [h, b32encode, hvals]
  obtain ⟨hwhole, htail⟩ := wholeBytes_flatMap_msbBits b (show k < 8 by omega)
  have hlen : 5 * vs.length = 8 * b.length + k := by
    rw [← valueBits_length, hbits]
    simp [List.length_flatMap, Nat.mul_comm]
  have hzero : true ∉ tailBits (valueBits vs) := by
    rw [hbits, htail]
    simp [List.mem_replicate]
  have hvalid : 5 * vs.length % 8 < 5 := by
    rw [hlen, Nat.mul_add_mod]
    exact (Nat.mod_le k 8).trans_lt hk
  rw [b32decode_eq_ok hv hvalid fun _ => hzero, hbits, hwhole]

theorem clean_b32encode (b : Bytes) : clean (b32encode b) = b32encode b :=
  (bitsToChars_values _).1

/-- Settles O32: an encoding is clean, and every token that cleans to it decodes to its bytes. -/
theorem base32RoundTrip : Obligations.Base32RoundTrip := fun b strict _ =>
  ⟨b32decode_of_clean_eq_b32encode (clean_b32encode b) strict,
    fun _ h => b32decode_of_clean_eq_b32encode h strict⟩

/-! ### Cleaning (R101) -/

theorem upperByte_letter {b : Byte} (h : 0x61 ≤ b.toNat ∧ b.toNat ≤ 0x7A) :
    (upperByte b).toNat = b.toNat - 0x20 := by
  rw [upperByte, if_pos h]
  bv_omega

theorem upperByte_other {b : Byte} (h : ¬(0x61 ≤ b.toNat ∧ b.toNat ≤ 0x7A)) : upperByte b = b :=
  if_neg h

/-- No byte is upper-cased to a space but the space itself. -/
theorem upperByte_eq_space {b : Byte} : upperByte b = 0x20 ↔ b = 0x20 := by
  by_cases h : 0x61 ≤ b.toNat ∧ b.toNat ≤ 0x7A
  · have := upperByte_letter h
    constructor <;> intro <;> bv_omega
  · rw [upperByte_other h]

/-- Upper-casing leaves no lower-case letter. -/
theorem upperByte_not_letter (b : Byte) :
    ¬(0x61 ≤ (upperByte b).toNat ∧ (upperByte b).toNat ≤ 0x7A) := by
  by_cases h : 0x61 ≤ b.toNat ∧ b.toNat ≤ 0x7A
  · have := upperByte_letter h
    omega
  · rwa [upperByte_other h]

/-- Upper-casing first removes the same bytes, since it neither makes nor unmakes a space. -/
theorem clean_eq_filter_map (tok : Bytes) :
    clean tok = (tok.map upperByte).filter fun b => b ≠ 0x20 := by
  rw [clean, List.filter_map]
  refine congrArg (List.map upperByte) (List.filter_congr fun b _ => ?_)
  simp only [Function.comp_apply, ne_eq, upperByte_eq_space]

/-- A byte that is no space and no lower-case letter is clean. -/
theorem clean_singleton {b : Byte} (hs : b ≠ 0x20) (h : ¬(0x61 ≤ b.toNat ∧ b.toNat ≤ 0x7A)) :
    clean [b] = [b] := by
  rw [clean, List.filter_cons_of_pos (by simpa using hs), List.filter_nil, List.map_singleton,
    upperByte_other h]

/-! ### The alphabet (R102) -/

theorem base32Val_upperCase {c : Byte} (h : 0x41 ≤ c.toNat) (h' : c.toNat ≤ 0x5A) :
    ∃ v, base32Val c = some v ∧ v.toNat = c.toNat - 0x41 :=
  ⟨_, if_pos ⟨h, h'⟩, by rw [BitVec.toNat_ofNat]; omega⟩

theorem base32Val_digit {c : Byte} (h : 0x32 ≤ c.toNat) (h' : c.toNat ≤ 0x37) :
    ∃ v, base32Val c = some v ∧ v.toNat = c.toNat - 0x32 + 26 :=
  ⟨_, by rw [base32Val, if_neg (by omega), if_pos ⟨h, h'⟩], by rw [BitVec.toNat_ofNat]; omega⟩

theorem base32Val_other {c : Byte} (h : ¬(0x41 ≤ c.toNat ∧ c.toNat ≤ 0x5A))
    (h' : ¬(0x32 ≤ c.toNat ∧ c.toNat ≤ 0x37)) : base32Val c = none := by
  rw [base32Val, if_neg h, if_neg h']

/-- Settles O27: upper-casing and removal commute, and the control bytes and the bytes past ASCII
are outside every range that cleaning or the alphabet looks at. -/
theorem cleaningCommutes : Obligations.CleaningCommutes := by
  refine ⟨clean_eq_filter_map, fun _ => rfl, fun b h h' => upperByte_letter ⟨h, h'⟩,
    fun b h => upperByte_other h, fun b hb => ?_⟩
  have hrange : b.toNat < 0x20 ∨ 0x80 ≤ b.toNat := by
    rcases hb with rfl | rfl | rfl | hb
    · exact .inl (by decide)
    · exact .inl (by decide)
    · exact .inl (by decide)
    · exact .inr hb
  exact ⟨clean_singleton (by bv_omega) (by omega), base32Val_other (by omega) (by omega)⟩

/-- Settles O28: B32_BADCHAR says that the cleaned token has no values, and the alphabet is read off
range by range. -/
theorem badCharacterExactly : Obligations.BadCharacterExactly := by
  refine ⟨fun _ _ => b32decode_eq_badChar.trans base32Vals_eq_none,
    fun _ => base32Val_upperCase, fun _ => base32Val_digit, fun _ => base32Val_other,
    fun tok b hb => ?_, by decide⟩
  obtain ⟨a, -, rfl⟩ := List.mem_map.1 hb
  exact upperByte_not_letter a

/-! ### The length of a token (R104) and its trailing bits (R106) -/

/-- The invalid lengths by their residue: `5 n` and `5 (n mod 8)` leave the same bits over. -/
theorem five_le_mod_iff (n : Nat) : 5 ≤ 5 * n % 8 ↔ n % 8 = 1 ∨ n % 8 = 3 ∨ n % 8 = 6 := by
  have residues : ∀ r < 8, 5 ≤ 5 * r % 8 ↔ r = 1 ∨ r = 3 ∨ r = 6 := by decide
  rw [Nat.mul_mod]
  exact residues _ (Nat.mod_lt _ (by decide))

/-- Settles O29: over values the length alone decides B32_BADLEN, and without STRICT every other
length decodes. -/
theorem badLengthExactly : Obligations.BadLengthExactly := by
  intro tok hall
  obtain ⟨vs, hv, hn⟩ := base32Vals_of_forall hall
  rw [← hn]
  refine ⟨fun strict => b32decode_eq_badLen hv, five_le_mod_iff _, fun hlen => ?_⟩
  exact ⟨_, b32decode_eq_ok hv hlen (by simp), by rw [wholeBytes_length, valueBits_length]⟩

/-- Settles O31: the tail is looked at with STRICT = 1 alone. -/
theorem trailingBitsPolicy : Obligations.TrailingBitsPolicy := by
  refine ⟨fun tok vs hv hn => ⟨b32decode_eq_badTail hv hn, fun ht => ?_, ?_⟩, by decide⟩
  · rw [b32decode_eq_ok hv hn fun _ => ht, b32decode_eq_ok hv hn (by simp)]
  · exact b32decode_eq_ok hv hn (by simp)

/-! ### The packing of the bits (R105) -/

/-- The tail has the bits that the whole bytes leave over. -/
theorem tailBits_valueBits_length (vs : List (BitVec 5)) :
    (tailBits (valueBits vs)).length = 5 * vs.length - 8 * (5 * vs.length / 8) := by
  rw [tailBits_eq_drop, List.length_drop, valueBits_length]

/-- Bit `k` of the tail is bit `k` of the characters' values past the whole bytes. -/
theorem tailBits_valueBits_getD (vs : List (BitVec 5)) {k : Nat}
    (h : 8 * (5 * vs.length / 8) + k < 5 * vs.length) :
    (tailBits (valueBits vs)).getD k false =
      (vs.getD ((8 * (5 * vs.length / 8) + k) / 5) 0).getMsbD
        ((8 * (5 * vs.length / 8) + k) % 5) := by
  rw [tailBits_eq_drop, valueBits_length, ← valueBits_getD vs h]
  simp [List.getD_eq_getElem?_getD]

/-- Bit `j` of output byte `i` is bit `8 i + j` of the characters' values. -/
theorem wholeBytes_valueBits_getMsbD (vs : List (BitVec 5)) {i j : Nat}
    (hi : i < 5 * vs.length / 8) (hj : j < 8) :
    ((wholeBytes (valueBits vs)).getD i 0).getMsbD j =
      (vs.getD ((8 * i + j) / 5) 0).getMsbD ((8 * i + j) % 5) := by
  rw [wholeBytes_getMsbD _ (by rwa [valueBits_length]) hj, valueBits_getD vs (by omega)]

/-- Settles O30: a bit of the output or of the tail is a bit of the characters' values, and the
number of tail bits follows from the number of characters. -/
theorem packingMsbFirst : Obligations.PackingMsbFirst := by
  intro vs
  have ht := tailBits_valueBits_length vs
  exact ⟨by rw [wholeBytes_length, valueBits_length],
    fun _ _ hi hj => wholeBytes_valueBits_getMsbD vs hi hj, ht, by omega, by omega, by omega,
    by omega, by omega, fun _ hk => tailBits_valueBits_getD vs hk⟩

/-! ### B32DEC (R108) -/

/-- Settles O33: the command stores the decoded bytes, zero-filled, and completes. -/
theorem b32decStoresKey : Obligations.B32decStoresKey := by
  intro s r hwf habort hn hr
  have hlen : r.length ≤ Config.keyMax := decoded_length_le hn hr
  exact ⟨_, exec_b32dec_decoded (secretError_none habort hn) hr, storeKey_keylen_toNat s hlen, hlen,
    fun _ hi => storeKey_readByte hwf hlen hi,
    fun _ hi => storeKey_readByte_outside hwf hlen hi, rfl⟩

end Sys2Proof.Proofs.Base32

/-! PROOFS. The statements about the time-step clock and the counter encoder
(spec/41_counter_timestep.md): TSTEP, the corner cases of a time, and the encoder's round trip. -/

namespace Sys2Proof.Proofs.TimeStep

open Sys2Proof.Machine Sys2Proof.Laws

/-! ### The time step (R132, R133) -/

/-- The time `r` seconds into step `q`: the counter is `q`, and the rest of the 30 seconds remains
(R132). -/
theorem timestep_ofNat {q r : Nat} (hr : r < 30) (h : 30 * q + r < 2 ^ 64) :
    timestep (BitVec.ofNat 64 (30 * q + r)) = (BitVec.ofNat 64 q, BitVec.ofNat 6 (30 - r)) := by
  have hdiv : (30 * q + r) / 30 = q := by omega
  have hmod : (30 * q + r) % 30 = r := by omega
  rw [timestep, Config.stepSeconds, BitVec.toNat_ofNat, Nat.mod_eq_of_lt h, hdiv, hmod]

/-- TSTEP reads nothing of COUNTER: it overwrites it (R134). -/
theorem exec_tstep_ctr (s : State) (c : DWord) :
    exec .tstep { s with ctr := c } = exec .tstep s := by
  rw [exec_tstep, exec_tstep]
  rfl

/-- Settles O24: the next state of TSTEP stores the two results and completes; 59 is the last second
of step 1. -/
theorem tstepDerivesCounter : Obligations.TstepDerivesCounter := by
  refine ⟨fun s => ⟨_, exec_tstep s, timestep_counter_toNat s.time,
    timestep_secrem_toNat s.time, rfl⟩, fun s ht => ?_⟩
  have h59 : timestep s.time = (1, 1) := by
    rw [ht]
    exact timestep_ofNat (q := 1) (r := 29) (by decide) (by decide)
  exact ⟨_, exec_tstep s, congrArg Prod.fst h59, congrArg Prod.snd h59⟩

/-- Settles O25: every corner case is a time split into its step and the seconds into it. -/
theorem timestepCornerCases : Obligations.TimestepCornerCases :=
  ⟨timestep_ofNat (q := 0) (r := 0) (by decide) (by decide),
    timestep_ofNat (q := 0) (r := 29) (by decide) (by decide),
    timestep_ofNat (q := 1) (r := 0) (by decide) (by decide),
    fun _ hk => timestep_ofNat (r := 0) (by decide) hk,
    fun _ hk => timestep_ofNat (r := 29) (by decide) hk,
    timestep_ofNat (q := 0x0888888888888888) (r := 15) (by decide) (by decide),
    exec_tstep_ctr⟩

/-! ### The counter encoder (R130, R131) -/

/-- The encoded counter read big-endian is the counter. -/
theorem fromBe_counterEncode (n : DWord) : fromBe (counterEncode n).toList = n.toNat := by
  rw [counterEncode_toList, fromBe_dwordBytes]

/-- The big-endian reading undoes the encoder, so no two counters have one encoding. -/
theorem counterEncode_injective : Function.Injective counterEncode := fun m n h =>
  BitVec.eq_of_toNat_eq <| by rw [← fromBe_counterEncode m, h, fromBe_counterEncode n]

/-- Settles O26: the round trip, the injectivity that follows, and R131's two examples evaluated. -/
theorem counterEncodeRoundTrip : Obligations.CounterEncodeRoundTrip :=
  ⟨fromBe_counterEncode, fun _ _ h => counterEncode_injective h, by decide, by decide⟩

end Sys2Proof.Proofs.TimeStep

/-! PROOFS. The statements about the reference SHA-1 and HMAC (spec/42_hmac_sha1.md R160 to R166),
and about what the code commands take from the HMAC-SHA1 processor (R150 to R154). -/

namespace Sys2Proof.Proofs.HmacSha1

open Sys2Proof.Machine Sys2Proof.Laws Sys2Proof.Proofs.BlockState

/-! ### Padding (R161) -/

/-- The zeros of the padding are the fewest that fill the last block. -/
theorem sha1ZeroCount_least (n : Nat) :
    (n + 1 + sha1ZeroCount n + 8) % 64 = 0 ∧
      ∀ y, y < sha1ZeroCount n → (n + 1 + y + 8) % 64 ≠ 0 := by
  rw [sha1ZeroCount]
  exact ⟨by omega, fun y hy => by omega⟩

/-- A padded message is the least number of whole blocks that holds the message and nine bytes. -/
theorem sha1Pad_length_blocks (m : Bytes) : (sha1Pad m).length = (m.length + 72) / 64 * 64 := by
  rw [sha1Pad_length, sha1ZeroCount]
  omega

/-- Settles O35: the padding is the definition's, its last eight bytes the length in bits, and the
block counts are those of its length. -/
theorem sha1PaddingLeast : Obligations.Sha1PaddingLeast := by
  refine ⟨fun m hm => ⟨_, sha1ZeroCount_least m.length, _, rfl, ?_, rfl⟩, fun m => ?_⟩
  · rw [fromBe_dwordBytes, BitVec.toNat_ofNat, Nat.mod_eq_of_lt hm]
  · rw [sha1Pad_length_blocks]
    omega

/-! ### The message schedule and the rounds (R162, R165) -/

/-- The schedule of a block has 80 words. -/
theorem sha1Schedule_length {b : List Word} (hb : b.length = 16) :
    (sha1Schedule b).length = 80 := by
  rw [sha1Schedule, List.length_reverse, extendSchedule_length, List.length_reverse, hb]

/-- Settles O36: the schedule is the block extended by 64 words of the recurrence. -/
theorem sha1ScheduleRecurrence : Obligations.Sha1ScheduleRecurrence := by
  refine ⟨fun b hb => ⟨sha1Schedule_length hb, ?_⟩, fun n x hn => rotl_eq_rotateLeft hn x,
    BitVec.toNat_add, beWords_getD⟩
  have hlen : b.reverse.length = 16 := by rw [List.length_reverse, hb]
  obtain ⟨hblock, hnext⟩ := extendSchedule_getD 64 b.reverse hlen.ge
  rw [hlen, List.reverse_reverse] at hblock
  rw [hlen] at hnext
  refine ⟨hblock, fun t h16 h80 => ?_⟩
  rw [← rotl_eq_rotateLeft (by decide)]
  exact hnext t h16 h80

/-- One more block comes after those before it, sixteen words further on. -/
theorem sha1Blocks_succ (n : Nat) (ws : List Word) :
    sha1Blocks (n + 1) ws = sha1Blocks n ws ++ [(ws.drop (16 * n)).take 16] := by
  induction n generalizing ws with
  | zero => rfl
  | succ n ih =>
    rw [sha1Blocks, ih, sha1Blocks, List.drop_drop, List.cons_append, Nat.mul_succ, Nat.add_comm 16]

/-- The words of a byte string are those of its first `4 k` bytes, then those of the others. -/
theorem beWords_split {m : Bytes} {k : Nat} (h : 4 * k ≤ m.length) :
    (beWords m).take k = beWords (m.take (4 * k)) ∧
      (beWords m).drop k = beWords (m.drop (4 * k)) := by
  have htake : (m.take (4 * k)).length = 4 * k := List.length_take_of_le h
  have hk : (beWords (m.take (4 * k))).length = k := by rw [beWords_length, htake]; omega
  have hm : beWords m = beWords (m.take (4 * k)) ++ beWords (m.drop (4 * k)) := by
    rw [← beWords_append (by omega), List.take_append_drop]
  rw [hm]
  exact ⟨List.take_left' hk, List.drop_left' hk⟩

/-- Block `i` of a byte string's words is the words of its bytes `64 i` to `64 i + 63` (R161). -/
theorem beWords_block {m : Bytes} {i : Nat} (h : i < m.length / 64) :
    ((beWords m).drop (16 * i)).take 16 = beWords ((m.drop (64 * i)).take 64) := by
  have hdrop := (beWords_split (m := m) (k := 16 * i) (by omega)).2
  have htake := (beWords_split (m := m.drop (4 * (16 * i))) (k := 16)
    (by rw [List.length_drop]; omega)).1
  rw [hdrop, htake, ← Nat.mul_assoc]

/-- The chaining words after the first `i` blocks of a list of words (R165). -/
def chainAfter (ws : List Word) (i : Nat) : Sha1Words :=
  (sha1Blocks i ws).foldl sha1Compress sha1Init

/-- A block's chaining words are its compression's from those of the block before. -/
theorem chainAfter_succ (ws : List Word) (i : Nat) :
    chainAfter ws (i + 1) = sha1Compress (chainAfter ws i) ((ws.drop (16 * i)).take 16) := by
  rw [chainAfter, sha1Blocks_succ, List.foldl_append]
  rfl

/-- SHA-1's words are the chaining words after every block of the padded message. -/
theorem sha1Words_eq_chainAfter (m : Bytes) :
    sha1Words m = chainAfter (beWords (sha1Pad m)) ((sha1Pad m).length / 64) := rfl

/-- `f_t` and `K_t` over the four ranges of `t` (R163). -/
theorem sha1F_sha1K_table (t : Nat) (b c d : Word) :
    (t < 20 → sha1F t b c d = (b &&& c) ||| (~~~b &&& d) ∧ sha1K t = 0x5A827999) ∧
    (20 ≤ t → t < 40 → sha1F t b c d = b ^^^ c ^^^ d ∧ sha1K t = 0x6ED9EBA1) ∧
    (40 ≤ t → t < 60 →
      sha1F t b c d = (b &&& c) ||| (b &&& d) ||| (c &&& d) ∧ sha1K t = 0x8F1BBCDC) ∧
    (60 ≤ t → t < 80 → sha1F t b c d = b ^^^ c ^^^ d ∧ sha1K t = 0xCA62C1D6) := by
  unfold sha1F sha1K
  refine ⟨fun h => ?_, fun h h' => ?_, fun h h' => ?_, fun h _ => ?_⟩
  · simp [h]
  · simp [h.not_gt, h']
  · simp [show ¬t < 20 by omega, h.not_gt, h']
  · simp [show ¬t < 20 by omega, show ¬t < 40 by omega, h.not_gt]

/-- Settles O37: the blocks are walked by the chaining words, a block's schedule by the rounds. -/
theorem sha1CompressionRounds : Obligations.Sha1CompressionRounds := by
  refine ⟨sha1F_sha1K_table, fun m => ?_, fun h block hb => ?_⟩
  · refine ⟨chainAfter (beWords (sha1Pad m)), rfl, fun i hi => ?_, sha1Words_eq_chainAfter m⟩
    rw [chainAfter_succ, beWords_block hi]
  · obtain ⟨v, h0, hround, hend⟩ := sha1Rounds_sequence (sha1Schedule block) 0 h
    rw [sha1Schedule_length hb] at hround hend
    refine ⟨v, h0, fun t ht => ?_, by rw [sha1Compress, hend]⟩
    rw [hround t ht, sha1Round, rotl_eq_rotateLeft (by decide), rotl_eq_rotateLeft (by decide),
      Nat.zero_add]

/-! ### The block key and the check values (R160, R166) -/

/-- Settles O39: the block key is its key, or the hash of a long key, zero-filled to 64 bytes. -/
theorem hmacBlockKey : Obligations.HmacBlockKey := by
  refine ⟨fun key => ?_, fun key hk i => ?_, fun key hk i => ?_, fun _ _ => rfl⟩
  · rw [Machine.hmacBlockKey, zeroFilled_length]
    split
    · rw [Vector.length_toList]; rfl
    · omega
  · rw [Machine.hmacBlockKey, getD_zeroFilled, if_neg hk.not_gt]
  · rw [Machine.hmacBlockKey, getD_zeroFilled, if_pos hk]

/-- Settles O38: the output lists the bytes of the five words in order, and the four check values
are evaluated. -/
theorem sha1CheckValues : Obligations.Sha1CheckValues :=
  ⟨fun _ => rfl, by decide +kernel, by decide +kernel, by decide +kernel, by decide +kernel⟩

/-! ### The code commands on any processor (R150 to R154) -/

section Processors

variable {H : HmacProcessor} {s t : State}

/-- HOTP past its checks stores a code. -/
theorem hotpOn_checked (hs : s.secretError s.keylen Config.keyMax = none) :
    hotpOn H s = .next (s.storeResults (genCode H (keyOperand s) s.ctr)).complete := by
  simp only [hotpOn, hs]

/-- TOTP past its checks stores a counter and the code at that counter. -/
theorem totpOn_checked (hs : s.secretError s.keylen Config.keyMax = none) :
    totpOn H s = .next ((s.storeTimestep (timestep s.time)).storeResults
      (genCode H (keyOperand s) (timestep s.time).1)).complete := by
  simp only [totpOn, hs]

/-- ROWCODE past its checks and its decoding stores a key and its code. -/
theorem rowcodeOn_decoded {r : Bytes} (hs : s.secretError s.toklen Config.tokMax = none)
    (hr : b32decode (tokenOperand s) s.strict = .ok r) :
    rowcodeOn H s = .next ((s.storeKey r).storeResults (genCode H r s.ctr)).complete := by
  simp only [rowcodeOn, hs, hr]

/-- A HOTP that fails has called no processor (R154). -/
theorem hotpOn_failed (K : HmacProcessor) (he : t.err = true) (h : hotpOn H s = .next t) :
    hotpOn K s = .next t := by
  rcases hotpOn_cases H s with ⟨e, hs, hH⟩ | ⟨-, hH⟩ <;> cases hH.symm.trans h
  · simp only [hotpOn, hs]
  · cases he

/-- A TOTP that fails has called no processor (R154). -/
theorem totpOn_failed (K : HmacProcessor) (he : t.err = true) (h : totpOn H s = .next t) :
    totpOn K s = .next t := by
  rcases totpOn_cases H s with ⟨e, hs, hH⟩ | ⟨-, hH⟩ <;> cases hH.symm.trans h
  · simp only [totpOn, hs]
  · cases he

/-- A ROWCODE that fails, by its checks or by its token, has called no processor (R154). -/
theorem rowcodeOn_failed (K : HmacProcessor) (he : t.err = true) (h : rowcodeOn H s = .next t) :
    rowcodeOn K s = .next t := by
  rcases rowcodeOn_cases H s with ⟨e, hs, hH⟩ | ⟨hs, ⟨e, hd, hH⟩ | ⟨r, -, hH⟩⟩ <;>
    cases hH.symm.trans h
  · simp only [rowcodeOn, hs]
  · simp only [rowcodeOn, hs, hd]
  · cases he

end Processors

/-- Settles O45: past its checks a command stores the results of the processor's digest; one that
fails has called none; and exec is these commands at the reference processor. -/
theorem codeCommandsOnEveryProcessor : Obligations.CodeCommandsOnEveryProcessor := by
  refine ⟨fun H s ha hl => ?_, fun H s r ha hl hr => ?_, fun s => ⟨rfl, rfl, rfl⟩,
    fun H K s t he => ⟨hotpOn_failed K he, totpOn_failed K he, rowcodeOn_failed K he⟩⟩
  · have hs := secretError_none (max := Config.keyMax) ha hl
    exact ⟨⟨_, hotpOn_checked hs, complete_succeeded _, resultsOf_storeResults s _⟩,
      _, totpOn_checked hs, complete_succeeded _,
      resultsOf_storeResults (s.storeTimestep (timestep s.time)) _⟩
  · have hs := secretError_none (max := Config.tokMax) ha hl
    exact ⟨_, rowcodeOn_decoded hs hr, complete_succeeded _,
      resultsOf_storeResults (s.storeKey r) _⟩

/-- Settles O48: HOTP makes the same checks and reads the same key in both states, so it raises the
same error or stores the same results. -/
theorem codeDependsOnKeyAndCounter : Obligations.CodeDependsOnKeyAndCounter := by
  intro s s' t t' ha hl hc hk h h'
  have hsec : s'.secretError s'.keylen Config.keyMax = s.secretError s.keylen Config.keyMax := by
    rw [State.secretError, State.secretError, ha, hl]
  have hkey : keyOperand s' = keyOperand s := by
    rw [keyOperand, keyOperand, ← hl, firstBytes_congr fun i hi => (hk i hi).symm]
  rcases exec_hotp_alike hsec hkey hc.symm with ⟨e, hs, hs'⟩ | ⟨g, hs, hs'⟩ <;>
    cases hs.symm.trans h <;> cases hs'.symm.trans h'
  · exact ⟨rfl, rfl, fun he => by cases he⟩
  · exact ⟨rfl, rfl, fun _ => ⟨rfl, rfl, rfl, rfl, rfl⟩⟩

end Sys2Proof.Proofs.HmacSha1

/-! PROOFS. The statements about dynamic truncation, the 6-digit formatter and the code commands
(spec/43_truncate_format.md): HOTP, TOTP and ROWCODE on the reference processor, and the two fused
commands as the commands they are made of. -/

namespace Sys2Proof.Proofs.Codes

open Sys2Proof.Machine Sys2Proof.Laws Sys2Proof.Proofs.BlockState Sys2Proof.Proofs.HmacSha1

/-! ### Truncation and the formatter (R190 to R193) -/

/-- The window ends before the last byte of the digest, which selects the offset alone (R191). -/
theorem truncOffset_window (h : Vector Byte 20) : (truncOffset h).toNat + 3 < 19 := by
  have := (truncOffset h).isLt
  omega

/-- Settles O40: the laws of truncation in arithmetic, the code being below a million. -/
theorem truncationArithmetic : Obligations.TruncationArithmetic := fun h =>
  ⟨truncOffset_toNat h, truncNumber_toNat h, (truncNumber h).isLt, truncOffset_window h,
    truncCode_toNat h, Nat.le_of_lt_succ (truncCode_lt h)⟩

/-- Byte `i` of the formatter's output is the digit of weight `10 ^ (5 - i)`. -/
theorem format6_getD (c : BitVec 20) {i : Nat} (hi : i < 6) :
    (format6 c).toList.getD i 0 = asciiDigit c (5 - i) := by
  rw [format6_toList]
  interval_cases i <;> rfl

/-- Settles O41: every byte is the digit of its weight, and the six of them are the numeral. -/
theorem formatterRendersNumeral : Obligations.FormatterRendersNumeral := by
  refine ⟨fun c hc => ⟨fun i hi => ?_, fun _ hb => isAsciiDigit_of_mem_format6 hb,
    decimalValue_format6 (Nat.lt_succ_of_le hc)⟩, by decide⟩
  rw [format6_getD c hi, asciiDigit_toNat]

/-! ### HOTP, TOTP and ROWCODE (R194 to R197) -/

/-- The key operand is the bytes of KEY below KEYLEN (R37). -/
theorem keyOperand_getD (s : State) {i : Nat} (hi : i < s.keylen.toNat) :
    (keyOperand s).getD i 0 = s.key.readByte i := by
  have hi' : i < (keyOperand s).length := by rwa [keyOperand, firstBytes_length]
  rw [List.getD_eq_getElem _ _ hi']
  exact firstBytes_getElem _ _ hi'

/-- Settles O42: past its checks HOTP stores the results of the key's digest and completes. -/
theorem hotpComputesCode : Obligations.HotpComputesCode :=
  ⟨fun s => ⟨firstBytes_length _ _, fun _ hi => keyOperand_getD s hi⟩, fun s ha hl =>
    ⟨_, hotpOn_checked (secretError_none ha hl), resultsOf_storeResults s _, rfl⟩⟩

/-- Settles O43: past its checks TOTP stores the counter of TIME and the results at that counter. -/
theorem totpComputesCode : Obligations.TotpComputesCode := fun s ha hl =>
  ⟨_, totpOn_checked (secretError_none ha hl), timestep_counter_toNat s.time,
    timestep_secrem_toNat s.time, resultsOf_storeResults (s.storeTimestep (timestep s.time)) _, rfl⟩

/-- Settles O44: the decoded key, zero-filled, and the results of its digest are stored. -/
theorem rowcodeComputesCode : Obligations.RowcodeComputesCode := by
  intro s r hwf ha hn hr
  have hlen : r.length ≤ Config.keyMax := decoded_length_le hn hr
  exact ⟨_, rowcodeOn_decoded (secretError_none ha hn) hr, storeKey_keylen_toNat s hlen,
    fun _ hi => storeKey_readByte hwf hlen hi, fun _ hi => storeKey_readByte_outside hwf hlen hi,
    resultsOf_storeResults (s.storeKey r) _, rfl⟩

/-! ### The fused commands (R199, 95_test_vectors.md section 2.8) -/

/-- HOTP run on a state that another command completed: the first completion leaves no trace, and
the key and COUNTER are those that command stored. -/
theorem exec_hotp_complete {s : State} (ha : s.abort = false)
    (hl : s.keylen.toNat ≤ Config.keyMax) :
    exec .hotp s.complete =
      .next (s.storeResults (genCode hmacProcessor (keyOperand s) s.ctr)).complete :=
  hotpOn_checked (s := s.complete) (secretError_none ha hl)

/-- Settles O46: TSTEP leaves the key and the latch, so HOTP passes its checks after it and reads
the counter it stored. -/
theorem totpIsTstepThenHotp : Obligations.TotpIsTstepThenHotp := fun s ha hl =>
  ⟨_, exec_tstep s, (totpOn_checked (secretError_none ha hl)).trans
    (exec_hotp_complete (s := s.storeTimestep (timestep s.time)) ha hl).symm⟩

/-- Settles O47: a ROWCODE that succeeds has decoded its token, so B32DEC stores the same key, and
HOTP reads it back whole. -/
theorem rowcodeIsB32decThenHotp : Obligations.RowcodeIsB32decThenHotp := by
  intro s t hwf h he
  rcases rowcodeOn_cases hmacProcessor s with ⟨e, -, hx⟩ | ⟨hs, ⟨e, -, hx⟩ | ⟨r, hr, hx⟩⟩ <;>
    cases hx.symm.trans h
  · cases he
  · cases he
  · obtain ⟨ha, hn⟩ := secretError_eq_none.1 hs
    have hlen : r.length ≤ Config.keyMax := decoded_length_le hn hr
    have hkeylen : (s.storeKey r).keylen.toNat ≤ Config.keyMax :=
      (storeKey_keylen_toNat s hlen).trans_le hlen
    refine ⟨_, exec_b32dec_decoded hs hr, rfl, ?_⟩
    rw [exec_hotp_complete (s := s.storeKey r) ha hkeylen, keyOperand_storeKey hwf hlen,
      storeKey_ctr]

end Sys2Proof.Proofs.Codes

/-! PROOFS. The statements about the control commands NOP, CLRERR and SRST (spec/44_control.md). -/

namespace Sys2Proof.Proofs.Control

open Sys2Proof.Machine Sys2Proof.Laws Sys2Proof.Proofs.BlockState Sys2Proof.Proofs.CommandWords

/-! ### Acceptance, STATUS and ERRCODE -/

/-- The sequencer's step after the acceptance of a command's word runs the command (R24, R85). -/
theorem sequencerStep_accept_encode (s : State) (i : Instr) :
    sequencerStep (s.accept (encode i)) = exec i (s.accept (encode i)) :=
  sequencerStep_legal rfl (decodeCommand_encode i)

/-- After a success with VALID, ABORT and OVR all 0, STATUS shows DONE and LASTOP alone (R25). -/
theorem statusWord_succeeded {t : State} (h : Succeeded t) (hvalid : t.valid = false)
    (habort : t.abort = false) (hovr : t.ovr = false) {opc : Byte} (hlast : t.lastop = opc) :
    statusWord t = 0x00000002 ||| (opc.setWidth 32 <<< 16) := by
  obtain ⟨hbusy, hdone, herr, hcode⟩ := h
  simp [statusWord, bitWord, hbusy, hdone, herr, hvalid, habort, hovr, hcode, hlast]

/-- Only an error completion leaves a nonzero ERRCODE (R252, R253). -/
theorem exec_raised_of_errcode {i : Instr} {s t : State} (h : exec i s = .next t)
    (hc : t.errcode ≠ 0) : ∃ e, t = s.raise (isCodeCommand i) e := by
  rcases exec_completes h with ⟨-, -, -, hzero⟩ | ⟨⟨-, -, herr, -⟩, -⟩
  · exact absurd hzero hc
  · obtain ⟨e, -, ht⟩ := exec_failed h herr
    exact ⟨e, ht⟩

/-! ### NOP (R230) -/

/-- The word 0 is the only legal one with NOP's opcode (R84, R230). -/
theorem decodeCommand_illegal_of_opcField_zero {w : Word} (hopc : opcField w = 0) (hw : w ≠ 0) :
    ∃ r, decodeCommand w = .error r := by
  have hlow : w.toNat % 256 = 0 := by rw [← opcField_toNat, hopc]; rfl
  have hne : w.toNat ≠ 0 := fun h => hw (BitVec.eq_of_toNat_eq h)
  exact decodeCommand_illegal (.inl (by omega))

/-- Settles O21: NOP is the success completion alone, and its word 0 is the only one of its opcode
that is legal. -/
theorem nopOnlyCompletes : Obligations.NopOnlyCompletes :=
  ⟨exec_nop, fun _ => decodeCommand_illegal_of_opcField_zero,
    fun _ hb => hostAccess_write_cmd_busy hb 0x00000000, _,
    sequencerStep_accept_encode State.reset .nop,
    (statusWord_succeeded (complete_succeeded _) rfl rfl rfl (opc := 0x00) rfl).trans (by decide)⟩

/-! ### CLRERR (R231) -/

/-- With both latches clear there is nothing for CLRERR to clear. -/
theorem clearLatches_eq_self {s : State} (habort : s.abort = false) (hovr : s.ovr = false) :
    s.clearLatches = s := by
  cases s
  cases habort
  cases hovr
  rfl

/-- Code 4 is B32_BADCHAR's and no other error's (R251). -/
theorem eq_badChar_of_errorCode {e : CmdError} (h : errorCode e = 4) : e = .decode .badChar := by
  rcases e with _ | _ | _ | _ | _ | _
  case decode.badChar => rfl
  all_goals exact absurd h (by decide)

/-- STATUS after a code command has failed with B32_BADCHAR under FAILFAST = 1, OVR being 0. -/
theorem statusWord_raise_badChar {s : State} (hovr : s.ovr = false) (hff : s.failfast = true)
    {opc : Byte} (hlast : s.lastop = opc) :
    statusWord (s.raise true (.decode .badChar)) =
      0x00000416 ||| (opc.setWidth 32 <<< 16) := by
  simp [statusWord, bitWord, setsAbort, errorCode, decodeErrorCode, hovr, hff, hlast]

/-- Settles O22: CLRERR is the success completion after the latches are cleared; in R231's example
ROWCODE has raised B32_BADCHAR, which cleared VALID, so CLRERR leaves DONE and LASTOP alone. -/
theorem clrerrClearsLatches : Obligations.ClrerrClearsLatches := by
  refine ⟨exec_clrerr, fun s ha ho => ?_, fun s t hb hp hl ho hff hstep hc => ?_⟩
  · rw [exec_clrerr, clearLatches_eq_self ha ho, exec_nop]
  · have hlegal : decodeCommand s.pending = .ok .rowcode := by
      rw [hp]; exact decodeCommand_encode .rowcode
    have hrow : exec .rowcode s = .next t := (sequencerStep_legal hb hlegal).symm.trans hstep
    obtain ⟨e, rfl⟩ := exec_raised_of_errcode hrow (by rw [hc]; decide)
    obtain rfl : e = .decode .badChar := eq_badChar_of_errorCode hc
    refine ⟨?_, _, sequencerStep_accept_encode _ .clrerr, ?_⟩
    · exact (statusWord_raise_badChar ho hff hl).trans (by decide)
    · exact (statusWord_succeeded (complete_succeeded _) rfl rfl rfl (opc := 0x06) rfl).trans
        (by decide)

/-! ### SRST (R232) -/

/-- Settles O23: SRST leaves the software reset, whose STATUS shows DONE and LASTOP alone and whose
buffers list no byte. -/
theorem srstResetsState : Obligations.SrstResetsState := by
  refine ⟨fun s => ⟨_, exec_srst s, rfl, ?_, ?_, fun i => ⟨readByte_nil i, readByte_nil i⟩⟩,
    fun s hb => hostAccess_write_cmd_busy hb 0x00000007⟩
  · exact (statusWord_succeeded ⟨rfl, rfl, rfl, rfl⟩ rfl rfl rfl (opc := 0x07) rfl).trans
        (by decide)
  · show configWord State.reset = 0x00000001
    decide

end Sys2Proof.Proofs.Control

/-! PROOFS. The statements about errors and the fail-fast latch (spec/60_exceptions.md): which steps
fault, what each of the two completions writes, which error a command raises, and what sets and
clears ABORT. -/

namespace Sys2Proof.Proofs.Exceptions

open Sys2Proof.Machine Sys2Proof.Laws Sys2Proof.Proofs.BlockState Sys2Proof.Proofs.CommandWords
  Sys2Proof.Proofs.Base32

/-! ### Faults of a step (R250, R261) -/

/-- A bus access has a next state or faults; it is never refused. -/
theorem hostAccess_answers (s : State) (a : Access) :
    (∃ t, hostAccess s a = .next t) ∨ ∃ f, hostAccess s a = .fault f := by
  cases a with
  | read size off x =>
    rw [hostAccess]
    split
    · split
      · exact .inl ⟨_, rfl⟩
      · exact .inr ⟨_, rfl⟩
    · exact .inl ⟨_, rfl⟩
  | write size off v =>
    rw [hostAccess]
    split
    · split
      · exact .inl ⟨_, rfl⟩
      · exact .inr ⟨_, rfl⟩
    · exact .inl ⟨_, rfl⟩

/-- A statement of the host's program has a next state or faults. -/
theorem hostStmt_answers (s : State) (st : Stmt) :
    (∃ t, hostStmt s st = .next t) ∨ ∃ f, hostStmt s st = .fault f := by
  cases st with
  | label l => exact .inl ⟨_, rfl⟩
  | wr off v => rw [hostStmt_wr]; exact hostAccess_answers _ _
  | rd off x => rw [hostStmt]; exact hostAccess_answers _ _
  | cmd i => rw [hostStmt_cmd]; exact hostAccess_answers _ _
  | stop => exact .inl ⟨_, rfl⟩
  | ifGoto c l =>
    rw [hostStmt]
    split
    · split
      · exact .inl ⟨_, rfl⟩
      · exact .inr ⟨_, rfl⟩
    · exact .inl ⟨_, rfl⟩

/-- A step of the host has a next state or faults. -/
theorem hostStep_answers (s : State) :
    (∃ t, hostStep s = .next t) ∨ ∃ f, hostStep s = .fault f := by
  rw [hostStep]
  split
  · exact .inl ⟨_, rfl⟩
  · split
    · exact hostStmt_answers _ _
    · exact .inl ⟨_, rfl⟩

/-- The sequencer's step has a next state, whatever is pending. -/
theorem sequencerStep_next (s : State) : ∃ t, sequencerStep s = .next t := by
  cases hb : s.busy with
  | false => exact ⟨s, sequencerStep_idle hb⟩
  | true =>
    obtain ⟨t, ht, -⟩ := pendingCommandCompletes.1 s hb
    exact ⟨t, ht⟩

/-- An event has a next state, or is the host's or an access and faults. -/
theorem perform_answers (e : Event) (s : State) :
    (∃ t, perform e s = .next t) ∨
      ((e = .host ∨ ∃ a, e = .access a) ∧ ∃ f, perform e s = .fault f) := by
  cases e with
  | sequencer => exact .inl (sequencerStep_next s)
  | hardReset => exact .inl ⟨_, rfl⟩
  | host => exact (hostStep_answers s).imp_right fun hf => ⟨.inl rfl, hf⟩
  | access a => exact (hostAccess_answers s a).imp_right fun hf => ⟨.inr ⟨a, rfl⟩, hf⟩

/-- Settles O8: of the four kinds of events only the host's and an access can fault, and none is
refused. -/
theorem onlyTheHostFaults : Obligations.OnlyTheHostFaults := by
  refine ⟨fun s r h => ?_, fun s f h => ?_⟩
  · rcases perform_answers (nextEvent s).1 (nextEvent s).2 with ⟨_, hs⟩ | ⟨-, _, hs⟩ <;>
      cases hs.symm.trans h
  · rcases perform_answers (nextEvent s).1 (nextEvent s).2 with ⟨_, hs⟩ | ⟨he, -⟩
    · cases hs.symm.trans h
    · exact he

/-! ### What a completion writes (R252, R253) -/

/-- Settles O9: a pending command completes with success or with ERR = 1. -/
theorem successCompletionFields : Obligations.SuccessCompletionFields := by
  intro s t hb h herr
  obtain ⟨t', ht', hend⟩ := pendingCommandCompletes.1 s hb
  cases ht'.symm.trans h
  rcases hend with ⟨hbusy, hdone, -, hcode⟩ | ⟨⟨-, -, herr', -⟩, -⟩
  · exact ⟨hbusy, hdone, hcode⟩
  · rw [herr] at herr'
    cases herr'

/-- The error completion by its code: a DecodeError is a code of 4 or more (R256). -/
theorem raise_eq (s : State) (isCode : Bool) (e : CmdError) :
    s.raise isCode e = { s with
      busy := false
      done := true
      err := true
      errcode := errorCode e
      valid := if isCode then false else s.valid
      abort := if 4 ≤ (errorCode e).toNat ∧ s.failfast = true then true else s.abort } := by
  obtain ⟨-, -, hset⟩ := errorCode_range e
  simp only [State.raise, Bool.and_eq_true, hset]

/-- Settles O10: an illegal word and a command that fails both end by raising an error. -/
theorem errorCompletionFields : Obligations.ErrorCompletionFields := by
  intro s t hb h herr
  rcases sequencerStep_cases hb h with ⟨r, hr, rfl⟩ | ⟨i, hi, hx⟩
  · obtain ⟨hne, hle, -⟩ := errorCode_range .illegalCmd
    refine ⟨hne, hle, ?_⟩
    rw [hr]
    exact raise_eq s false .illegalCmd
  · obtain ⟨e, -, rfl⟩ := exec_failed hx herr
    obtain ⟨hne, hle, -⟩ := errorCode_range e
    refine ⟨hne, hle, ?_⟩
    rw [hi]
    exact raise_eq s (isCodeCommand i) e

/-! ### Which error a command raises (R254, R255) -/

/-- The error a command raises in a state: ABORTED before LENGTH_RANGE before a DecodeError, and
which commands have each (R254, R255). -/
inductive Raises (i : Instr) (s : State) : CmdError → Prop where
  | aborted (hi : (isDecodeCommand i || isCodeCommand i) = true) (ha : s.abort = true) :
      Raises i s .aborted
  | lengthRange (ha : s.abort = false)
      (hl : (isDecodeCommand i = true ∧ Config.tokMax < s.toklen.toNat) ∨
        ((i = .hotp ∨ i = .totp) ∧ Config.keyMax < s.keylen.toNat)) :
      Raises i s .lengthRange
  | decode (e : DecodeError) (hi : isDecodeCommand i = true) (ha : s.abort = false)
      (hn : s.toklen.toNat ≤ Config.tokMax)
      (he : b32decode (tokenOperand s) s.strict = .error e) : Raises i s (.decode e)

section Raising

variable {i : Instr} {s t : State} {e : CmdError}

/-- The checks of a command that decodes a token raise their error. -/
theorem raises_of_tokenCheck (hi : isDecodeCommand i = true)
    (h : s.secretError s.toklen Config.tokMax = some e) : Raises i s e := by
  rcases secretError_eq_some.1 h with ⟨ha, rfl⟩ | ⟨ha, hl, rfl⟩
  · exact .aborted (by rw [hi]; rfl) ha
  · exact .lengthRange ha (.inl ⟨hi, hl⟩)

/-- The checks of HOTP and TOTP raise their error. -/
theorem raises_of_keyCheck (hi : i = .hotp ∨ i = .totp)
    (h : s.secretError s.keylen Config.keyMax = some e) : Raises i s e := by
  rcases secretError_eq_some.1 h with ⟨ha, rfl⟩ | ⟨ha, hl, rfl⟩
  · exact .aborted (by rcases hi with rfl | rfl <;> rfl) ha
  · exact .lengthRange ha (.inr ⟨hi, hl⟩)

/-- A DecodeError past the checks is raised. -/
theorem raises_of_decodeError {e : DecodeError} (hi : isDecodeCommand i = true)
    (hs : s.secretError s.toklen Config.tokMax = none)
    (h : b32decode (tokenOperand s) s.strict = .error e) : Raises i s (.decode e) := by
  obtain ⟨ha, hn⟩ := secretError_eq_none.1 hs
  exact .decode e hi ha hn h

/-- A command that ends with ERR = 1 raised one of its errors. -/
theorem exec_raises (h : exec i s = .next t) (herr : t.err = true) :
    ∃ e, Raises i s e ∧ t = s.raise (isCodeCommand i) e := by
  cases i with
  | nop => cases h; cases herr
  | tstep => cases h; cases herr
  | clrerr => cases h; cases herr
  | srst => cases h; cases herr
  | hotp =>
    rcases hotpOn_cases hmacProcessor s with ⟨e, hs, hx⟩ | ⟨-, hx⟩ <;> cases hx.symm.trans h
    · exact ⟨e, raises_of_keyCheck (.inl rfl) hs, rfl⟩
    · cases herr
  | totp =>
    rcases totpOn_cases hmacProcessor s with ⟨e, hs, hx⟩ | ⟨-, hx⟩ <;> cases hx.symm.trans h
    · exact ⟨e, raises_of_keyCheck (.inr rfl) hs, rfl⟩
    · cases herr
  | b32dec =>
    rcases execB32dec_cases s with ⟨e, hs, hx⟩ | ⟨hs, ⟨e, he, hx⟩ | ⟨r, -, hx⟩⟩ <;>
      cases hx.symm.trans h
    · exact ⟨e, raises_of_tokenCheck rfl hs, rfl⟩
    · exact ⟨_, raises_of_decodeError rfl hs he, rfl⟩
    · cases herr
  | rowcode =>
    rcases rowcodeOn_cases hmacProcessor s with ⟨e, hs, hx⟩ | ⟨hs, ⟨e, he, hx⟩ | ⟨r, -, hx⟩⟩ <;>
      cases hx.symm.trans h
    · exact ⟨e, raises_of_tokenCheck rfl hs, rfl⟩
    · exact ⟨_, raises_of_decodeError rfl hs he, rfl⟩
    · cases herr

/-- A check of HOTP or TOTP that fails is raised (R255). -/
theorem exec_keyCheckError (hi : i = .hotp ∨ i = .totp)
    (hs : s.secretError s.keylen Config.keyMax = some e) :
    exec i s = .next (s.raise (isCodeCommand i) e) := by
  rcases hi with rfl | rfl
  · simp only [exec, execHotp, hotpOn, hs]; rfl
  · simp only [exec, execTotp, totpOn, hs]; rfl

/-- A command raises the error that its state has for it, and no later one of the order (R255). -/
theorem exec_of_raises (h : Raises i s e) : exec i s = .next (s.raise (isCodeCommand i) e) := by
  cases h with
  | aborted hi ha => exact exec_aborted ha hi
  | lengthRange ha hl =>
    rcases hl with ⟨hi, hl⟩ | ⟨hi, hl⟩
    · exact exec_tokenCheckError hi (secretError_eq_some.2 (.inr ⟨ha, hl, rfl⟩))
    · exact exec_keyCheckError hi (secretError_eq_some.2 (.inr ⟨ha, hl, rfl⟩))
  | decode e hi ha hn he => exact exec_decodeError hi (secretError_none ha hn) he

/-- A command that raises an error fails with its code. -/
theorem exec_failedWith (h : Raises i s e) :
    ∃ t, exec i s = .next t ∧ FailedWith t (errorCode e) :=
  ⟨_, exec_of_raises h, rfl, rfl, rfl, rfl⟩

/-- Only the commands that decode a token or make a code raise an error (R254). -/
theorem secretCommand_of_raises (h : Raises i s e) :
    i = .b32dec ∨ i = .hotp ∨ i = .totp ∨ i = .rowcode := by
  cases h with
  | aborted hi _ => exact secretCommand_cases hi
  | lengthRange _ hl =>
    rcases hl with ⟨hi, -⟩ | ⟨rfl | rfl, -⟩
    · exact secretCommand_cases (by rw [hi]; rfl)
    · exact .inr (.inl rfl)
    · exact .inr (.inr (.inl rfl))
  | decode _ hi _ _ _ => exact secretCommand_cases (by rw [hi]; rfl)

end Raising

/-- The commands that decode a token, by name. -/
theorem isDecodeCommand_iff {i : Instr} :
    isDecodeCommand i = true ↔ i = .b32dec ∨ i = .rowcode := by
  cases i <;> simp [isDecodeCommand]

/-- The codes of a command's error, read back (R251): 1 is no command's, 2 is the latch's, 3 a
length's, and 4 to 6 a token's. -/
theorem raises_code {i : Instr} {s : State} {e : CmdError} (h : Raises i s e) :
    errorCode e ≠ 1 ∧ (errorCode e = 2 ↔ s.abort = true) ∧
      (errorCode e = 3 → ((i = .b32dec ∨ i = .rowcode) ∧ 256 < s.toklen.toNat) ∨
        ((i = .hotp ∨ i = .totp) ∧ 160 < s.keylen.toNat)) ∧
      (4 ≤ (errorCode e).toNat → i = .b32dec ∨ i = .rowcode) := by
  cases h with
  | aborted _ ha =>
    exact ⟨by decide, ⟨fun _ => ha, fun _ => rfl⟩, fun h => absurd h (by decide),
      fun h => absurd h (by decide)⟩
  | lengthRange ha hl =>
    refine ⟨by decide, by simp [ha, errorCode], fun _ => ?_, fun h => absurd h (by decide)⟩
    exact hl.imp_left fun ⟨hi, hn⟩ => ⟨isDecodeCommand_iff.1 hi, hn⟩
  | decode e hi ha _ _ =>
    obtain ⟨h1, h2, h3⟩ :
        decodeErrorCode e ≠ 1 ∧ decodeErrorCode e ≠ 2 ∧ decodeErrorCode e ≠ 3 := by
      cases e <;> decide
    exact ⟨h1, ⟨fun h => absurd h h2, fun h => absurd (ha.symm.trans h) (by decide)⟩,
      fun h => absurd h h3, fun _ => isDecodeCommand_iff.1 hi⟩

/-- A pending illegal word fails with ILLEGAL_CMD in every state (R84). -/
theorem sequencerStep_illegal_failedWith {s : State} {r : Illegal} (hb : s.busy = true)
    (hr : decodeCommand s.pending = .error r) : ∃ t, sequencerStep s = .next t ∧ FailedWith t 1 :=
  ⟨_, sequencerStep_illegal hb hr, rfl, rfl, rfl, rfl⟩

/-! ### Each error in some state (R254) -/

/-- The reset state with both lengths one past their range. -/
def overlongState : State := { State.reset with toklen := 257, keylen := 161 }

/-- The reset state with STRICT = 1 and the token `bs`. -/
def strictTokenState (bs : Bytes) : State :=
  { State.reset with
    token := Memory.writeBytes [] 0 bs
    toklen := BitVec.ofNat 32 bs.length
    strict := true }

/-- A token with each DecodeError under STRICT = 1: "1", "A" and "MZ". -/
def badTokenOf : DecodeError → Bytes
  | .badChar => [0x31]
  | .badLen => [0x41]
  | .badTail => [0x4D, 0x5A]

theorem raises_aborted_latchedState {i : Instr}
    (hi : (isDecodeCommand i || isCodeCommand i) = true) : Raises i latchedState .aborted :=
  .aborted hi rfl

theorem raises_lengthRange_overlongState {i : Instr}
    (hi : (isDecodeCommand i || isCodeCommand i) = true) :
    Raises i overlongState .lengthRange := by
  refine .lengthRange rfl ?_
  rcases secretCommand_cases hi with rfl | rfl | rfl | rfl
  · exact .inl ⟨rfl, by decide⟩
  · exact .inr ⟨.inl rfl, by decide⟩
  · exact .inr ⟨.inr rfl, by decide⟩
  · exact .inl ⟨rfl, by decide⟩

theorem raises_decode_badToken {i : Instr} (hi : isDecodeCommand i = true) (e : DecodeError) :
    Raises i (strictTokenState (badTokenOf e)) (.decode e) := by
  refine .decode e hi rfl ?_ ?_ <;> cases e <;> decide

/-- Settles O11: the error a command raises has the code of its kind, and the latched state, the
overlong lengths and the three bad tokens raise each. -/
theorem errorCodesPerCommand : Obligations.ErrorCodesPerCommand := by
  refine ⟨fun s t hb h herr => ?_, fun i c hi hc => ?_,
    fun s r => sequencerStep_illegal_failedWith⟩
  · rcases sequencerStep_cases hb h with ⟨r, hr, rfl⟩ | ⟨i, hi, hx⟩
    · refine ⟨⟨fun _ => ⟨r, hr⟩, fun _ => rfl⟩, fun i hi => ?_⟩
      rw [hr] at hi
      cases hi
    · obtain ⟨e, he, rfl⟩ := exec_raises hx herr
      obtain ⟨hone, hcodes⟩ := raises_code he
      refine ⟨⟨fun h => absurd h hone, fun ⟨r, hr⟩ => ?_⟩, fun j hj => ?_⟩
      · rw [hi] at hr
        cases hr
      · cases hi.symm.trans hj
        exact ⟨secretCommand_of_raises he, hcodes⟩
  · rcases hc with rfl | rfl | ⟨hd, rfl | rfl | rfl⟩
    · exact ⟨_, exec_failedWith (raises_aborted_latchedState hi)⟩
    · exact ⟨_, exec_failedWith (raises_lengthRange_overlongState hi)⟩
    · exact ⟨_, exec_failedWith (raises_decode_badToken hd .badChar)⟩
    · exact ⟨_, exec_failedWith (raises_decode_badToken hd .badLen)⟩
    · exact ⟨_, exec_failedWith (raises_decode_badToken hd .badTail)⟩

/-- Settles O13: each clause has the premises of one error of the order; the three of a token are
what the decoder answers for it. -/
theorem errorPriority : Obligations.ErrorPriority := by
  refine ⟨fun s r => sequencerStep_illegal_failedWith,
    fun s i hi ha => exec_failedWith (.aborted hi ha),
    fun s i ha hl => exec_failedWith (.lengthRange ha hl),
    fun s i hi ha hn hbad => ?_, fun s i hi ha hn hall hlen => ?_,
    fun s i vs hi ha hn hv hlen hstrict htail => ?_⟩
  · exact exec_failedWith
      (.decode .badChar hi ha hn (b32decode_eq_badChar.2 (base32Vals_eq_none.2 hbad)))
  · obtain ⟨vs, hv, hvlen⟩ := base32Vals_of_forall hall
    rw [← hvlen] at hlen
    exact exec_failedWith (.decode .badLen hi ha hn ((b32decode_eq_badLen hv).2 hlen))
  · rw [← base32Vals_length hv] at hlen
    refine exec_failedWith (.decode .badTail hi ha hn ?_)
    rw [hstrict]
    exact b32decode_eq_badTail hv hlen htail

/-! ### What sets and clears ABORT (R256, R258) -/

/-- ABORT after a command: kept, cleared by CLRERR or SRST, or set by a DecodeError under
FAILFAST = 1. -/
theorem exec_abort {i : Instr} {s t : State} (h : exec i s = .next t) :
    t.abort = s.abort ∨ (t.abort = false ∧ (i = .clrerr ∨ i = .srst)) ∨
      (t.abort = true ∧ s.failfast = true ∧ t.err = true ∧ 4 ≤ t.errcode.toNat ∧
        isDecodeCommand i = true) := by
  by_cases hi : i = .srst
  · subst hi
    cases h
    exact .inr (.inl ⟨rfl, .inr rfl⟩)
  · obtain ⟨-, -, hwrites⟩ := commandWriteSets
    obtain ⟨-, -, -, -, -, -, hkept | ⟨hclr, ha⟩ | ⟨hd, herr, hc, hff, ha⟩⟩ := hwrites s t i h hi
    · exact .inl hkept
    · exact .inr (.inl ⟨ha, .inl hclr⟩)
    · exact .inr (.inr ⟨ha, hff, herr, hc, hd⟩)

/-- ABORT after a step: kept, cleared by the hardware reset or a pending CLRERR or SRST, or set by
the sequencer's step of a pending command that decodes a token, with a DecodeError. -/
theorem step_abort {s t : State} (h : step s = .next t) :
    t.abort = s.abort ∨
      (t.abort = false ∧ ((nextEvent s).1 = .hardReset ∨
        ((nextEvent s).1 = .sequencer ∧ s.busy = true ∧
          (decodeCommand s.pending = .ok .clrerr ∨ decodeCommand s.pending = .ok .srst)))) ∨
      (t.abort = true ∧ (nextEvent s).1 = .sequencer ∧ s.busy = true ∧ s.failfast = true ∧
        t.err = true ∧ 4 ≤ t.errcode.toNat ∧
        ∃ i, decodeCommand s.pending = .ok i ∧ isDecodeCommand i = true) := by
  obtain ⟨e, es, hev, hh⟩ := step_happening h
  rw [hev]
  rcases happening_frame hh with ⟨he, hb, hseq⟩ | ⟨he, rfl⟩ | ⟨ha, -⟩
  · rcases sequencerStep_cases hb hseq with ⟨r, -, rfl⟩ | ⟨i, hi, hx⟩
    · exact .inl rfl
    · rcases exec_abort hx with ha | ⟨ha, rfl | rfl⟩ | ⟨ha, hff, herr, hc, hd⟩
      · exact .inl ha
      · exact .inr (.inl ⟨ha, .inr ⟨he, hb, .inl hi⟩⟩)
      · exact .inr (.inl ⟨ha, .inr ⟨he, hb, .inr hi⟩⟩)
      · exact .inr (.inr ⟨ha, he, hb, hff, herr, hc, i, hi, hd⟩)
  · exact .inr (.inl ⟨rfl, .inl he⟩)
  · exact .inl ha

/-- A command that ends with a code of 4 or more under FAILFAST = 1 leaves the latch set. -/
theorem exec_sets_abort {i : Instr} {s t : State} (h : exec i s = .next t)
    (hc : 4 ≤ t.errcode.toNat) (hff : s.failfast = true) : t.abort = true := by
  rcases exec_completes h with ⟨-, -, -, hzero⟩ | ⟨⟨-, -, herr, -⟩, -⟩
  · rw [hzero] at hc
    exact absurd hc (by decide)
  · obtain ⟨e, -, rfl⟩ := exec_failed h herr
    rw [raise_eq]
    exact if_pos ⟨hc, hff⟩

/-- Settles O14: of what a step can do to ABORT only a DecodeError sets it, and every one under
FAILFAST = 1 does. -/
theorem abortSetByDecodeErrors : Obligations.AbortSetByDecodeErrors := by
  refine ⟨fun s t h ha ht => ?_, fun s t i _ => exec_sets_abort⟩
  rcases step_abort h with hkept | ⟨hclr, -⟩ | ⟨-, hset⟩
  · cases ht.symm.trans (hkept.trans ha)
  · cases ht.symm.trans hclr
  · exact hset

/-- A write of CONFIG, stored or dropped, leaves the latch (R258). -/
theorem hostAccess_write_config_abort (s : State) (v : Word) :
    ∃ t, hostAccess s (.write .four 0x004 v) = .next t ∧ t.abort = s.abort := by
  refine ⟨_, hostAccess_write s (off := 0x004) (by decide) (by decide) v, ?_⟩
  rcases busWrite_cases s (regAt 0x004) v with h | ⟨-, h⟩ | ⟨-, h⟩ <;> rw [h] <;> rfl

/-- Settles O16: of what a step can do to ABORT only the three clear it, each in every state. -/
theorem abortClearedBy : Obligations.AbortClearedBy := by
  refine ⟨fun s t h ha ht => ?_,
    fun s => ⟨⟨_, exec_clrerr s, rfl⟩, ⟨_, exec_srst s, rfl⟩, ⟨_, rfl, rfl⟩⟩,
    hostAccess_write_config_abort⟩
  rcases step_abort h with hkept | ⟨-, hclr⟩ | ⟨hset, -⟩
  · cases ht.symm.trans (hkept.trans ha)
  · exact hclr
  · cases ht.symm.trans hset

/-! ### While ABORT = 1 (R257) -/

/-- The result registers of `s` and `t` are the same, and VALID is not set in `t` alone. -/
abbrev MakesNoCode (s t : State) : Prop :=
  t.code = s.code ∧ t.digits = s.digits ∧ t.digest = s.digest ∧ t.snum = s.snum ∧
    t.offset = s.offset ∧ (s.valid = false → t.valid = false)

/-- An error completion makes no code (R253). -/
theorem raise_makesNoCode (s : State) (isCode : Bool) (e : CmdError) :
    MakesNoCode s (s.raise isCode e) := by
  refine ⟨rfl, rfl, rfl, rfl, rfl, fun hv => ?_⟩
  rw [raise_valid, hv, ite_self]

/-- The commands that neither decode a token nor make a code, by name. -/
theorem openCommand_cases {i : Instr} (h : (isDecodeCommand i || isCodeCommand i) = false) :
    i = .nop ∨ i = .tstep ∨ i = .clrerr ∨ i = .srst := by
  cases i <;> simp_all [isDecodeCommand, isCodeCommand]

/-- A command that starts and ends with the latch set makes no code. -/
theorem exec_latched_makesNoCode {i : Instr} {s t : State} (ha : s.abort = true)
    (h : exec i s = .next t) (ht : t.abort = true) : MakesNoCode s t := by
  cases hi : isDecodeCommand i || isCodeCommand i with
  | true =>
    cases (exec_aborted ha hi).symm.trans h
    exact raise_makesNoCode s _ _
  | false =>
    rcases openCommand_cases hi with rfl | rfl | rfl | rfl <;> cases h
    · exact ⟨rfl, rfl, rfl, rfl, rfl, id⟩
    · exact ⟨rfl, rfl, rfl, rfl, rfl, id⟩
    · cases ht
    · cases ht

/-- A step that starts and ends with the latch set makes no code. -/
theorem step_latched_makesNoCode {s t : State} (ha : s.abort = true) (h : step s = .next t)
    (ht : t.abort = true) : MakesNoCode s t := by
  obtain ⟨e, es, -, hh⟩ := step_happening h
  rcases happening_frame hh with ⟨-, hb, hseq⟩ | ⟨-, rfl⟩ |
    ⟨-, -, -, hv, hcode, hdigits, hdigest, hsnum, hoff, -⟩
  · rcases sequencerStep_cases hb hseq with ⟨r, -, rfl⟩ | ⟨i, -, hx⟩
    · exact raise_makesNoCode s false .illegalCmd
    · exact exec_latched_makesNoCode (s := s.setAgenda es) ha hx ht
  · cases ht
  · exact ⟨hcode, hdigits, hdigest, hsnum, hoff, hv.trans⟩

/-- Settles O15: the secret-dependent commands raise ABORTED, which sets no latch, the others
complete, and no step makes a code. -/
theorem abortGatesSecretCommands : Obligations.AbortGatesSecretCommands := by
  refine ⟨fun s i ha hi => exec_aborted ha hi, fun s i _ hi => ?_,
    fun s t => step_latched_makesNoCode⟩
  rcases openCommand_cases hi with rfl | rfl | rfl | rfl
  · exact ⟨_, exec_nop s, complete_succeeded _⟩
  · exact ⟨_, exec_tstep s, complete_succeeded _⟩
  · exact ⟨_, exec_clrerr s, complete_succeeded _⟩
  · exact ⟨_, exec_srst s, rfl, rfl, rfl, rfl⟩

end Sys2Proof.Proofs.Exceptions

/-! PROOFS. The statements about reset (spec/70_reset_and_hazards.md): the reset state field by field
and register by register, the hardware reset, and the invariants the reset state meets. -/

namespace Sys2Proof.Proofs.Reset

open Sys2Proof.Machine Sys2Proof.Laws Sys2Proof.Proofs.BlockState

/-- A word of a buffer that lists no byte is 0 (R45, R46, R281). -/
theorem readWord_nil (j : Nat) : Memory.readWord [] j = 0 := by
  simp only [Memory.readWord, readByte_nil]
  decide

/-- Every register of the reset state but CONFIG and the three hardwired ones reads 0 (R281). -/
theorem readReg_reset_eq_zero {r : Reg} (hid : r ≠ .id) (hconfig : r ≠ .config)
    (hparam : r ≠ .param) (hconst : r ≠ .const) : readReg State.reset r = 0 := by
  cases r with
  | id => exact absurd rfl hid
  | config => exact absurd rfl hconfig
  | param => exact absurd rfl hparam
  | const => exact absurd rfl hconst
  | digest j => revert j; decide
  | status => decide
  | token j => exact readWord_nil j
  | key j => exact readWord_nil j
  | _ => rfl

/-- A register below the buffers stands at an offset of its row of the map (R21). -/
theorem mem_regMap_of_regAt {off : Nat} {r : Reg} (h : regAt off = r)
    (htoken : ∀ j, r ≠ .token j) (hkey : ∀ j, r ≠ .key j) (hres : r ≠ .reserved) :
    (off, r) ∈ regMap := by
  unfold regAt at h
  split at h
  next r' hlook =>
    subst h
    obtain ⟨l₁, l₂, heq, -⟩ := List.lookup_eq_some_iff.1 hlook
    simp [heq]
  next =>
    split at h
    · exact absurd h.symm (htoken _)
    · split at h
      · exact absurd h.symm (hkey _)
      · exact absurd h.symm hres

/-- ID, CONFIG, PARAM and CONST stand at no offset but their own (R21). -/
theorem regAt_eq_named {off : Nat} :
    (regAt off = .id → off = 0x000) ∧ (regAt off = .config → off = 0x004) ∧
      (regAt off = .param → off = 0x058) ∧ (regAt off = .const → off = 0x05C) := by
  refine ⟨fun h => ?_, fun h => ?_, fun h => ?_, fun h => ?_⟩ <;>
    simpa [regMap] using mem_regMap_of_regAt h (by simp) (by simp) (by simp)

/-- Settles O19: the fields are the reset state's own; each register reads 0 by what it holds, and
the four that do not stand at the offsets the statement names. -/
theorem resetValues : Obligations.ResetValues := by
  refine ⟨by decide, rfl, rfl, fun i => ⟨readByte_nil i, readByte_nil i⟩, by decide,
    fun off _ h0 h4 h58 h5C => ?_, fun s => ⟨rfl, rfl, rfl⟩⟩
  obtain ⟨hid, hconfig, hparam, hconst⟩ := regAt_eq_named (off := off)
  exact readReg_reset_eq_zero (fun h => h0 (hid h)) (fun h => h4 (hconfig h))
    (fun h => h58 (hparam h)) (fun h => h5C (hconst h))

/-- Settles O20: the hardware reset's next state is the reset state in the surroundings of the one
before it, BUSY or not. -/
theorem hardResetRestoresBlock : Obligations.HardResetRestoresBlock :=
  fun s => ⟨s.hardReset, rfl, hardReset_env s, rfl⟩

/-- Settles O59: what every step of O58 keeps holds at reset. -/
theorem resetMeetsBlockInv : Obligations.ResetMeetsBlockInv := blockInv_reset

end Sys2Proof.Proofs.Reset
